-- ==== Sys2Proof/Word.lean ====
section
/-! DEFINITION. The two word types of the block: a stored byte and a command word. -/

namespace Sys2Proof

/-- Every stored value is one byte (R52). -/
abbrev Byte := BitVec 8

/-- A command word of the format CMD64, handed over whole (R70). -/
abbrev CmdWord := BitVec 64

/-- How many of a byte's eight bits are 1 (the `popcount` of R117). -/
def Byte.popcount (v : Byte) : Nat :=
  (List.range 8).countP fun i => v.getLsbD i

end Sys2Proof
end

