-- ==== Sys2Proof/Syntax.lean ====
section
/-! DEFINITION. The command set: one constructor per row of spec/opcode_table.json. -/

namespace Sys2Proof

/-- The commands of the block (R73). -/
inductive Instr where
  /-- SETPIXEL: write pixel `idx`'s colour (R100). `idx` is the signed integer of R72, compared as a
  mathematical integer (R11); `r`, `g` and `b` are 8-bit unsigned values. -/
  | setpixel (idx : Int) (r g b : Byte)
  /-- ENCODE: rebuild the symbol buffer (R110). -/
  | encode
  /-- TRANSMIT: send the symbol buffer (R130). -/
  | transmit
  deriving DecidableEq, Repr

end Sys2Proof
end

