-- ==== Sys2Proof/WellFormed.lean ====
section
/-! DEFINITION. Which instructions the encoding can hold. -/

namespace Sys2Proof

/-- `idx` is a 32-bit two's-complement value: it lies in [-2^31, 2^31 - 1] (R72). -/
abbrev idxEncodable (idx : Int) : Prop := -2147483648 ≤ idx ∧ idx ≤ 2147483647

/-- A SETPIXEL must have an index its 32-bit field can hold; every colour value, ENCODE and
TRANSMIT are always encodable (R72, R74). -/
abbrev Instr.wf : Instr → Prop
  | .setpixel idx _ _ _ => idxEncodable idx
  | .encode => True
  | .transmit => True

/-- `Instr.wf` as a check that runs. -/
def Instr.wellFormed : Instr → Bool
  | .setpixel idx _ _ _ => decide (idxEncodable idx)
  | .encode => true
  | .transmit => true

end Sys2Proof
end

