-- ==== Sys2Proof/Decode.lean ====
section
/-! DEFINITION. The command decoder (R74) and, after it, the encoder (R71). -/

namespace Sys2Proof

/-- Why a command word decodes to ILLEGAL (R75). -/
inductive IllegalWord where
  /-- `op` is none of 0x01, 0x02 and 0x03. -/
  | unassignedOp (op : Byte)
  /-- ENCODE or TRANSMIT with a 1 among bits [55:0]. -/
  | reservedBits (op : Byte)
  deriving DecidableEq, Repr

/-- `w[63:56]`, the operation (R71). -/
def opField (w : CmdWord) : Byte := w.extractLsb' 56 8

/-- `w[55:48]`, the red value of SETPIXEL (R72). -/
def redField (w : CmdWord) : Byte := w.extractLsb' 48 8

/-- `w[47:40]`, the green value of SETPIXEL (R72). -/
def greenField (w : CmdWord) : Byte := w.extractLsb' 40 8

/-- `w[39:32]`, the blue value of SETPIXEL (R72). -/
def blueField (w : CmdWord) : Byte := w.extractLsb' 32 8

/-- `sext_64(w[31:0])`, the pixel index of SETPIXEL, as the signed integer it is read as (R72). -/
def idxField (w : CmdWord) : Int := ((w.extractLsb' 0 32).signExtend 64).toInt

/-- `w[55:0]`, reserved in ENCODE and TRANSMIT (R71). -/
def reservedField (w : CmdWord) : BitVec 56 := w.extractLsb' 0 56

/-- ENCODE and TRANSMIT are legal only when the reserved field is 0 (R74). -/
def decodePlain (i : Instr) (w : CmdWord) : Except IllegalWord Instr :=
  if reservedField w = 0 then .ok i else .error (.reservedBits (opField w))

/-- Decoding, total on every 64-bit word (R74). -/
def decode (w : CmdWord) : Except IllegalWord Instr :=
  if opField w = 0x01 then .ok (.setpixel (idxField w) (redField w) (greenField w) (blueField w))
  else if opField w = 0x02 then decodePlain .encode w
  else if opField w = 0x03 then decodePlain .transmit w
  else .error (.unassignedOp (opField w))

/-- What the decoder reads from a word of `nbits` bits, bit 0 the least significant, the bits above
being 0. A command has 64 bits (R70), so a longer one is none of this block's (log 12). -/
def decodeTableWord (nbits w : Nat) : Option Instr :=
  if nbits ≤ 64 then (decode (BitVec.ofNat 64 (w % 2 ^ nbits))).toOption else none

/-- The `op` of each command (R73). -/
def Instr.op : Instr → Byte
  | .setpixel _ _ _ _ => 0x01
  | .encode => 0x02
  | .transmit => 0x03

/-- Bits [55:0] of each command's word: the operands of SETPIXEL in the order r, g, b, idx, and
zeros for the others (R71). -/
def Instr.operandBits : Instr → BitVec 56
  | .setpixel idx r g b => (r ++ g ++ b ++ BitVec.ofInt 32 idx : BitVec (8 + 8 + 8 + 32)).cast rfl
  | .encode => 0
  | .transmit => 0

/-- The word of an instruction (R71). -/
def encode (i : Instr) : CmdWord := (i.op ++ i.operandBits : BitVec (8 + 56)).cast rfl

end Sys2Proof
end

