-- ==== Sys2Proof/Config.lean ====
section
/-! DEFINITION. The block's parameters: the exact ones as numbers, the OPEN ones as `Config`. -/

namespace Sys2Proof

/-- `N`, the number of pixels (R9, R10). -/
abbrev numPixels : Nat := 8

/-- `NCH`, green, red and blue (R9). -/
abbrev numChannels : Nat := 3

/-- `NBITS`, the bits of a channel value (R9). -/
abbrev numBits : Nat := 8

/-- `NSLOT`, the symbol bytes of a protocol bit (R9). -/
abbrev numSlots : Nat := 3

/-- `PIX_LEN = N × NCH` (R9). -/
abbrev pixLen : Nat := 24

/-- `SYM_LEN = N × NCH × NBITS × NSLOT` (R9). -/
abbrev symLen : Nat := 576

/-- An index of the pixel store: no other byte of PIX exists (R24, R50). -/
abbrev PixAddr := Fin 24

/-- An index of the symbol buffer: no other byte of SYM exists (R25, R50). -/
abbrev SymAddr := Fin 576

/-- `CFG`, the block's only control state (R31). The last field is R31's constraint: a value that
breaks it is no configuration of this block, so it cannot be built (log 2). -/
structure Config where
  /-- The code of the reset/idle level. -/
  codeIdle : Byte
  /-- The code of the bit-low level. -/
  codeLow : Byte
  /-- The code of the bit-high level. -/
  codeHigh : Byte
  /-- `SLOT_SPIN`, the hold after each symbol byte, in spins. -/
  slotSpin : Nat
  /-- `RESET_SPIN`, the hold of the reset phase, in spins. -/
  resetSpin : Nat
  /-- A 1 has the higher code (R31). -/
  lowBelowHigh : codeLow < codeHigh
  deriving DecidableEq, Repr

/-- Constructing a configuration from five values: refused when CODE_LOW is not below CODE_HIGH
(R31). -/
def Config.make? (codeIdle codeLow codeHigh : Byte) (slotSpin resetSpin : Nat) : Option Config :=
  if h : codeLow < codeHigh then some ⟨codeIdle, codeLow, codeHigh, slotSpin, resetSpin, h⟩ else none

/-- Some configuration. It has no body: nothing can be proved of its values beyond what the type
`Config` says (log 1). -/
opaque Config.chosen [Inhabited Config] : Config

/-- The configuration the block was constructed with (R31). The spec leaves all five values OPEN
(92 D5, D8, D9), so this is the uninterpreted `Config.chosen`; the argument only shows that a
configuration exists, and its numbers reach no proof (log 1). -/
def Config.constructed : Config :=
  @Config.chosen ⟨⟨0, 0, 1, 0, 0, by decide⟩⟩

end Sys2Proof
end

