-- ==== Sys2Proof/Machine/State.lean ====
section
/-! DEFINITION. The state of one block (R20), the reasons a step can stop, and the state after
reset. -/

namespace Sys2Proof.Machine

/-- A storage space, as the cells that hold something: addresses strictly rising, and no cell that
holds what an unlisted address reads as (`Memory.wf`). -/
abbrev Memory := List Host.Cell

/-- What an unlisted byte of PIX reads as: the value R35 gives every byte of PIX at reset. -/
def pixBlank : Option Byte := some 0x00

/-- What an unlisted byte of SYM reads as: no value, because SYM is unwritten at reset (R35). -/
def symBlank : Option Byte := none

/-- The canonical form of a space of `size` bytes whose unlisted bytes read as `blank`. -/
abbrev Memory.wf (size : Nat) (blank : Option Byte) (m : Memory) : Prop :=
  m.Pairwise (fun c d => c.1 < d.1) ∧ ∀ c ∈ m, c.1 < size ∧ some c.2 ≠ blank

/-- `TX.phase` (R27). The idle phase is one write that ends in READY, so it has no value here. -/
inductive Phase where
  | ready
  | reset
  | stream
  deriving DecidableEq, Repr

/-- `TX`, the transmitter state (R27). -/
structure Tx where
  /-- `TX.phase`. -/
  phase : Phase
  /-- `TX.idx`, an integer in [0, SYM_LEN]: the next symbol byte to write. -/
  idx : Fin 577
  /-- `TX.spin`: the spins left in the current hold. -/
  spin : Nat
  deriving DecidableEq, Repr

/-- `LINE`, the last byte written to the port, or UNDRIVEN (R29). -/
inductive Line where
  | undriven
  | driven (level : Byte)
  deriving DecidableEq, Repr

/-- One event of the port trace (R29). -/
inductive PortEvent where
  /-- `W(b)`: a write of byte `b`. -/
  | write (b : Byte)
  /-- `S`: one spin of a hold. -/
  | spin
  deriving DecidableEq, Repr

/-- `FAULT.kind` (R30). -/
inductive FaultKind where
  | none
  | illegalCommand
  | notEncoded
  | busy
  deriving DecidableEq, Repr

/-- The cause code of each kind (R30). -/
def FaultKind.code : FaultKind → Nat
  | .none => 0
  | .illegalCommand => 1
  | .notEncoded => 2
  | .busy => 3

/-- `FAULT`, the fault register (R30). -/
structure FaultReg where
  /-- `FAULT.kind`. -/
  kind : FaultKind
  /-- `FAULT.cmd`, the command word that faulted. -/
  cmd : CmdWord
  deriving DecidableEq, Repr

/-- One thing a host can do to the block (R160). -/
inductive HostAction where
  /-- Issue a command word. -/
  | issue (w : CmdWord)
  /-- The reset event (R230). -/
  | reset
  /-- Nothing, for one step: a delay, a sample read (R161, R217). -/
  | idle
  deriving DecidableEq, Repr

/-- An action and when it comes (log 4): `blocking` is the call of a host that follows the protocol,
made only when control has returned from a TRANSMIT (R160); otherwise the action comes at once, also
in the middle of a TRANSMIT. -/
structure HostEvent where
  action : HostAction
  blocking : Bool
  deriving DecidableEq, Repr

/-- A command issued by a host that waits for control to return (R160). -/
abbrev HostEvent.call (w : CmdWord) : HostEvent := ⟨.issue w, true⟩

/-- A command issued whether or not the block is busy (R203, R240). -/
abbrev HostEvent.preempt (w : CmdWord) : HostEvent := ⟨.issue w, false⟩

/-- A reset, at any time (R230). -/
abbrev HostEvent.resetNow : HostEvent := ⟨.reset, false⟩

/-- One step of a delay, after control has returned (R161). -/
abbrev HostEvent.delay : HostEvent := ⟨.idle, true⟩

/-- One step in which the host leaves the block alone, busy or not. -/
abbrev HostEvent.pass : HostEvent := ⟨.idle, false⟩

/-- The state of one block instance (R20), and the host's coming events. -/
structure State where
  /-- `CFG` (R31). -/
  cfg : Config
  /-- `PIX` (R24). -/
  pix : Memory
  /-- `SYM` (R25). -/
  sym : Memory
  /-- `SYM_VALID` (R26). -/
  symValid : Bool
  /-- `TX` (R27). -/
  tx : Tx
  /-- `LINE` (R29). -/
  line : Line
  /-- `TRACE`, oldest event first (R29). -/
  trace : List PortEvent
  /-- `FAULT` (R30). -/
  fault : FaultReg
  /-- The model's own field: what the host will do, next first (log 3). -/
  host : List HostEvent
  deriving DecidableEq, Repr

/-- Why the machine stops. -/
inductive Fault where
  /-- Raised by a step, or by a command, of a block that a recorded fault has stopped, when no reset
  is to come: nothing is enabled any more (R204, 93 entry 17). Safe: the machine stops where the spec
  has no step. -/
  | stopped
  /-- Raised by the symbol-byte write (R133) when SYM holds no value there. No run reaches it, since
  TRANSMIT needs SYM_VALID (R202) and an ENCODE fills SYM (R110). Safe: the machine stops rather
  than send a value nothing wrote (R35). -/
  | unwrittenSymbol
  deriving DecidableEq, Repr

/-- Why an instruction has no meaning. -/
inductive Refusal where
  /-- Raised by an arm of `exec` for an instruction without a meaning; this model has no such arm.
  Safe: the machine stops. -/
  | notModelled (mnemonic : String)
  deriving DecidableEq, Repr

/-- What a step answers. -/
abbrev Outcome := Host.Outcome State Fault Refusal

/-- The block right after reset (R35), constructed with `Config.constructed`, and no host event yet
(log 3). -/
def State.reset : State where
  cfg := Config.constructed
  pix := []
  sym := []
  symValid := false
  tx := ⟨.ready, 0, 0⟩
  line := .undriven
  trace := []
  fault := ⟨.none, 0⟩
  host := []

end Sys2Proof.Machine
end

