-- ==== Sys2Proof/Machine/Flags.lean ====
section
/-! DEFINITION. The block has no status flags (R23). Its derived conditions stand here. -/

namespace Sys2Proof.Machine

/-- `BUSY = (TX.phase ≠ READY)`, derived and not stored (R23). -/
def State.busy (s : State) : Bool := s.tx.phase ≠ .ready

/-- A fault has been recorded, so the block is stopped until a reset (R204). -/
def State.stopped (s : State) : Bool := s.fault.kind ≠ .none

end Sys2Proof.Machine
end

