-- ==== Sys2Proof/Machine/Operands.lean ====
section
/-! DEFINITION. What the operands of the commands stand for: the pixel an index names, the bytes of
the pixel store and of the symbol buffer, and the level of a bit. -/

namespace Sys2Proof.Machine

/-- The pixel an index names: the range test `0 ≤ idx < N` on the signed integer, with no clamp
(R100, R102). -/
def pixelOf (idx : Int) : Option (Fin 8) :=
  if h : 0 ≤ idx ∧ idx < 8 then some ⟨idx.toNat, by omega⟩ else none

/-- The byte of PIX that holds channel `c` of pixel `p`, `c = 0` green, 1 red, 2 blue: `3p + c`
(R24). -/
def pixAddr (p : Fin 8) (c : Fin 3) : PixAddr := ⟨3 * p.val + c.val, by omega⟩

/-- The number of protocol bit `k` (0 the most significant) of channel `c` of pixel `p` (R110). -/
def bitNumber (p : Fin 8) (c : Fin 3) (k : Fin 8) : Fin 192 :=
  ⟨24 * p.val + 8 * c.val + k.val, by omega⟩

/-- The byte of SYM that holds slot `j` of protocol bit `m`: `3m + j` (R110). -/
def slotAddr (m : Fin 192) (j : Fin 3) : SymAddr := ⟨3 * m.val + j.val, by omega⟩

/-- Bit `k` of a channel value, `k = 0` the most significant: `v[7 - k]` (R110, R112). -/
def channelBit (v : Byte) (k : Fin 8) : Bool := v.getLsbD (7 - k.val)

/-- `LEVEL(bit)` (R12). -/
def level (cfg : Config) (bit : Bool) : Byte := if bit then cfg.codeHigh else cfg.codeLow

end Sys2Proof.Machine
end

