-- ==== Sys2Proof/Machine/Ops.lean ====
section
/-! DEFINITION. The named operations over the state: the bytes of PIX and SYM, the port, the
transmitter, the fault register, the reset, and the acceptance of a command. -/

namespace Sys2Proof.Machine

/-! ### A space as a list of cells -/

/-- The byte a space lists at an address. -/
def Memory.cell? : Memory → Nat → Option Byte
  | [], _ => none
  | (k, v) :: rest, a => if k = a then some v else Memory.cell? rest a

/-- The space with a byte listed at an address, in address order. -/
def Memory.setCell (a : Nat) (v : Byte) : Memory → Memory
  | [] => [(a, v)]
  | (k, w) :: rest =>
    if a < k then (a, v) :: (k, w) :: rest
    else if a = k then (a, v) :: rest
    else (k, w) :: Memory.setCell a v rest

/-- The space with nothing listed at an address. -/
def Memory.clearCell (a : Nat) (m : Memory) : Memory := m.filter fun c => c.1 ≠ a

/-- What an address reads as, in a space whose unlisted bytes read as `blank`. -/
def Memory.readByte (blank : Option Byte) (m : Memory) (a : Nat) : Option Byte :=
  match Memory.cell? m a with
  | some v => some v
  | none => blank

/-- Writing a byte keeps the canonical form: a byte that reads as an unlisted one is not listed. -/
def Memory.writeByte (blank : Option Byte) (a : Nat) (v : Byte) (m : Memory) : Memory :=
  if some v = blank then Memory.clearCell a m else Memory.setCell a v m

/-! ### The accesses of R12, one byte each (R54) -/

/-- `PIX[a]`. Every byte of PIX has a value (R35). -/
def State.pixRead (s : State) (a : PixAddr) : Byte :=
  (Memory.readByte pixBlank s.pix a.val).getD 0x00

/-- `PIX[a] <- v`. -/
def State.pixWrite (a : PixAddr) (v : Byte) (s : State) : State :=
  { s with pix := Memory.writeByte pixBlank a.val v s.pix }

/-- `SYM[a]`, if anything has written it (R35). -/
def State.symRead (s : State) (a : SymAddr) : Option Byte :=
  Memory.readByte symBlank s.sym a.val

/-- `SYM[a] <- v`. -/
def State.symWrite (a : SymAddr) (v : Byte) (s : State) : State :=
  { s with sym := Memory.writeByte symBlank a.val v s.sym }

/-- Writing all of SYM. -/
def State.setSym (m : Memory) (s : State) : State := { s with sym := m }

/-- `SYM_VALID <- 1`. -/
def State.markSymValid (s : State) : State := { s with symValid := true }

/-- `PortWrite(v)`: `LINE <- v`, and the event `W(v)` (R12, R29). -/
def State.portWrite (v : Byte) (s : State) : State :=
  { s with line := .driven v, trace := s.trace ++ [.write v] }

/-- `Spin()`: the event `S`, and nothing else (R134). -/
def State.spinEvent (s : State) : State := { s with trace := s.trace ++ [.spin] }

/-- Writing all of `TX`. -/
def State.setTx (tx : Tx) (s : State) : State := { s with tx := tx }

/-- What the host will do from now on. -/
def State.setHost (events : List HostEvent) (s : State) : State := { s with host := events }

/-! ### Taking a fault, and the reset that ends it -/

/-- `raise Fault(kind, w)`: the kind and the word are recorded, and nothing else is written. From then
on the block is stopped (R204, R205). -/
def State.raiseFault (kind : FaultKind) (w : CmdWord) (s : State) : State :=
  { s with fault := ⟨kind, w⟩ }

/-- The reset event: every piece of block state at its reset value (R230, R35), CFG kept (R231). What
the host will do next is its own and is kept. -/
def State.applyReset (s : State) : State :=
  { State.reset with cfg := s.cfg, host := s.host }

/-! ### Accepting a command -/

/-- What every command does first (R100, R110, R130). A stopped block accepts none (R204). A busy one
takes the BUSY fault, with the word of the command (R203, log 8). Otherwise the command has its
effect. -/
def accept (i : Instr) (s : State) (effect : State → Outcome) : Outcome :=
  if s.stopped then .fault .stopped
  else if s.busy then .next (s.raiseFault .busy (encode i))
  else effect s

end Sys2Proof.Machine
end

