-- ==== Sys2Proof/Machine/FrameEncoder.lean ====
section
/-! DEFINITION. ENCODE (R110 to R118). -/

namespace Sys2Proof.Machine

/-- The symbol of protocol bit `m`: `CODE_IDLE`, the level of the bit, `CODE_IDLE`, at `3m`, `3m + 1` and
`3m + 2` (R110; the reading of slots 0 and 2 is 92 D6). -/
def symbolCells (cfg : Config) (m : Fin 192) (bit : Bool) : Memory :=
  [((slotAddr m 0).val, cfg.codeIdle), ((slotAddr m 1).val, level cfg bit),
    ((slotAddr m 2).val, cfg.codeIdle)]

/-- The eight symbols of channel `c` of pixel `p`, the most significant bit of its value `v` first
(R112). -/
def channelCells (cfg : Config) (p : Fin 8) (c : Fin 3) (v : Byte) : Memory :=
  (List.finRange 8).flatMap fun k => symbolCells cfg (bitNumber p c k) (channelBit v k)

/-- The symbols of a pixel: green, red, blue (R111). -/
def State.pixelCells (s : State) (p : Fin 8) : Memory :=
  (List.finRange 3).flatMap fun c => channelCells s.cfg p c (s.pixRead (pixAddr p c))

/-- The symbols of the frame, pixels ascending (R111). -/
def State.frameCells (s : State) : Memory := (List.finRange 8).flatMap s.pixelCells

/-- ENCODE rewrites all of SYM from the current PIX (R110): each of its 576 bytes is among the cells of
the frame once, so nothing of the earlier contents stays (R113, R115). -/
def State.encodeFrame (s : State) : State := s.setSym s.frameCells

/-- ENCODE (R110). -/
def execEncode (s : State) : Outcome :=
  accept .encode s fun s => .next s.encodeFrame.markSymValid

/-! The pseudocode of R110 as it stands, one byte write after another. `encodeFrame` computes what this
loop leaves in SYM without walking SYM once for each write; that the two agree is a statement about the
model. -/

/-- The body of R110's loop. -/
def State.writeSymbol (p : Fin 8) (c : Fin 3) (k : Fin 8) (s : State) : State :=
  let bit := channelBit (s.pixRead (pixAddr p c)) k
  let m := bitNumber p c k
  ((s.symWrite (slotAddr m 0) s.cfg.codeIdle).symWrite (slotAddr m 1) (level s.cfg bit)).symWrite
    (slotAddr m 2) s.cfg.codeIdle

/-- R110's inner loop, over the bits of a channel value. -/
def State.loopBits (p : Fin 8) (c : Fin 3) (s : State) : State :=
  (List.finRange 8).foldl (fun s k => s.writeSymbol p c k) s

/-- R110's middle loop, over the channels of a pixel. -/
def State.loopChannels (p : Fin 8) (s : State) : State :=
  (List.finRange 3).foldl (fun s c => s.loopBits p c) s

/-- R110's outer loop, over the pixels. -/
def State.encodeLoop (s : State) : State :=
  (List.finRange 8).foldl (fun s p => s.loopChannels p) s

end Sys2Proof.Machine
end

