-- ==== Sys2Proof/Machine/PixelStore.lean ====
section
/-! DEFINITION. SETPIXEL (R100 to R103). -/

namespace Sys2Proof.Machine

/-- The three writes of SETPIXEL, green first (store order, R100). The operands come red first
(R71). -/
def State.writePixel (p : Fin 8) (r g b : Byte) (s : State) : State :=
  ((s.pixWrite (pixAddr p 0) g).pixWrite (pixAddr p 1) r).pixWrite (pixAddr p 2) b

/-- SETPIXEL (R100). An index out of range writes nothing and never faults (R101). -/
def execSetpixel (idx : Int) (r g b : Byte) (s : State) : Outcome :=
  accept (.setpixel idx r g b) s fun s =>
    match pixelOf idx with
    | some p => .next (s.writePixel p r g b)
    | none => .next s

end Sys2Proof.Machine
end

