-- ==== Sys2Proof/Machine/Transmitter.lean ====
section
/-! DEFINITION. TRANSMIT (R130) and the micro-steps of the transmitter (R131 to R136). -/

namespace Sys2Proof.Machine

/-- TRANSMIT: the reset-phase write, and the hold of the reset phase begins (R130). -/
def execTransmit (s : State) : Outcome :=
  accept .transmit s fun s =>
    if s.symValid then .next ((s.portWrite s.cfg.codeIdle).setTx ⟨.reset, 0, s.cfg.resetSpin⟩)
    else .next (s.raiseFault .notEncoded (encode .transmit))

/-- The micro-steps of a TRANSMIT. -/
inductive MicroStep where
  /-- One spin of a hold (R131). -/
  | hold
  /-- The end of the reset hold (R132). -/
  | endReset
  /-- A symbol-byte write (R133). -/
  | symbolByte
  /-- The idle-phase write (R136). -/
  | idleWrite
  deriving DecidableEq, Repr

/-- The guard of each micro-step, as its rule states it (R131, R132, R133, R136). -/
def MicroStep.guard (m : MicroStep) (tx : Tx) : Bool :=
  match m with
  | .hold => (tx.phase = .reset ∨ tx.phase = .stream) ∧ 0 < tx.spin
  | .endReset => tx.phase = .reset ∧ tx.spin = 0
  | .symbolByte => tx.phase = .stream ∧ tx.spin = 0 ∧ tx.idx.val < 576
  | .idleWrite => tx.phase = .stream ∧ tx.spin = 0 ∧ tx.idx.val = 576

/-- `Spin()` and `TX.spin <- TX.spin - 1` (R131). -/
def State.holdStep (s : State) : State :=
  s.spinEvent.setTx { s.tx with spin := s.tx.spin - 1 }

/-- `TX.phase <- STREAM`, `TX.idx <- 0`, and no port event (R132). -/
def State.endResetStep (s : State) : State :=
  s.setTx { s.tx with phase := .stream, idx := 0 }

/-- `PortWrite(SYM[TX.idx])`, `TX.idx <- TX.idx + 1`, `TX.spin <- SLOT_SPIN` (R133), for an index below
SYM_LEN. -/
def State.symbolByteStep (s : State) (h : s.tx.idx.val < 576) : Outcome :=
  match s.symRead ⟨s.tx.idx.val, h⟩ with
  | some b =>
    .next ((s.portWrite b).setTx
      { s.tx with idx := ⟨s.tx.idx.val + 1, by omega⟩, spin := s.cfg.slotSpin })
  | none => .fault .unwrittenSymbol

/-- `PortWrite(CODE_IDLE)`, `TX.phase <- READY`, `TX.idx <- 0`; no hold follows (R136). -/
def State.idleWriteStep (s : State) : State :=
  (s.portWrite s.cfg.codeIdle).setTx { s.tx with phase := .ready, idx := 0 }

/-- The one micro-step that is enabled; at READY none is, and the block stays as it is (R135, R217). -/
def microStep (s : State) : Outcome :=
  match s.tx.phase with
  | .ready => .next s
  | .reset => if 0 < s.tx.spin then .next s.holdStep else .next s.endResetStep
  | .stream =>
    if 0 < s.tx.spin then .next s.holdStep
    else if h : s.tx.idx.val < 576 then s.symbolByteStep h
    else .next s.idleWriteStep

end Sys2Proof.Machine
end

