-- ==== Sys2Proof/Machine/Dispatch.lean ====
section
/-! DEFINITION. The meaning of every command, one arm each. -/

namespace Sys2Proof.Machine

def exec (i : Instr) (s : State) : Host.Outcome State Fault Refusal :=
  match i with
  | .setpixel idx r g b => Sys2Proof.Machine.execSetpixel idx r g b s
  | .encode => Sys2Proof.Machine.execEncode s
  | .transmit => Sys2Proof.Machine.execTransmit s

end Sys2Proof.Machine
end

