-- ==== Sys2Proof/Machine/CommandPort.lean ====
section
/-! DEFINITION. The block's turn: the host's next event, if it comes now, and otherwise the
transmitter's next micro-step. -/

namespace Sys2Proof.Machine

/-- A command word arrives: decoding comes before everything else (R206), an illegal word takes the
ILLEGAL_COMMAND fault (R201), and a legal one is performed. -/
def issue (w : CmdWord) (s : State) : Outcome :=
  match decode w with
  | .ok i => exec i s
  | .error _ => .next (s.raiseFault .illegalCommand w)

/-- One action of the host on a block that is not stopped (R160). While the host does nothing, a busy
block makes its micro-step and an idle one keeps its state (R217). -/
def act (a : HostAction) (s : State) : Outcome :=
  match a with
  | .issue w => issue w s
  | .reset => .next s.applyReset
  | .idle => microStep s

/-- The events after the host's next reset, if there is one. -/
def afterReset? : List HostEvent → Option (List HostEvent)
  | [] => none
  | e :: rest => if e.action = .reset then some rest else afterReset? rest

/-- A stopped block has one enabled transition, the reset; what the host issues before it is never
accepted (R204). Without a reset to come it is stuck (log 6). -/
def stoppedTurn (s : State) : Outcome :=
  match afterReset? s.host with
  | some rest => .next (s.setHost rest).applyReset
  | none => .fault .stopped

/-- One step of the block and its host. A blocking event waits until control has returned (R160), and
with no event to come the host does nothing (R232). -/
def turn (s : State) : Outcome :=
  if s.stopped then stoppedTurn s
  else
    match s.host with
    | [] => microStep s
    | e :: rest => if e.blocking && s.busy then microStep s else act e.action (s.setHost rest)

/-- The state in which the host issues a command word at once, as its very next event. -/
def State.withCommand (w : CmdWord) (s : State) : State := s.setHost (.preempt w :: s.host)

end Sys2Proof.Machine
end

