-- ==== Sys2Proof/Machine/Step.lean ====
section
/-! DEFINITION. One step of the machine, and how an instruction is placed so that the next step runs
it. -/

namespace Sys2Proof.Machine

/-- One step: the host's next event, or the transmitter's next micro-step (`turn`). -/
def step (s : State) : Host.Outcome State Fault Refusal := Sys2Proof.Machine.turn s

/-- The block fetches no instructions; the host delivers a word (R22, R66). So an instruction is placed
by making its word the host's next event, issued at once (log 3). -/
def State.withFetchWord (s : State) (nbits w : Nat) : State :=
  s.withCommand (BitVec.ofNat 64 (w % 2 ^ nbits))

end Sys2Proof.Machine
end

