-- ==== Sys2Proof/Machine/Assembler.lean ====
section
/-! DEFINITION. The assembler's text (R78) and the pseudo-instructions (R79). A text is a list of
characters. -/

namespace Sys2Proof.Machine

/-- `CLRPIXEL idx`: SETPIXEL with the colour 0, 0, 0 (R79). -/
def clrPixel (idx : Int) : Instr := .setpixel idx 0 0 0

/-- `SHOW`: ENCODE, then TRANSMIT (R79). -/
def showFrame : List Instr := [.encode, .transmit]

/-- Space and tab separate the parts of a line (log 18). -/
def isBlank (c : Char) : Bool := c = ' ' || c = '\t'

/-- A line without its comment: `;` begins one (R78). -/
def stripComment (line : List Char) : List Char := line.takeWhile (· ≠ ';')

/-- A text without the blanks at its two ends. -/
def trim (cs : List Char) : List Char :=
  ((cs.dropWhile isBlank).reverse.dropWhile isBlank).reverse

/-- The pieces of a text between the separators. -/
def splitAtChar (sep : Char) : List Char → List (List Char)
  | [] => [[]]
  | c :: cs =>
    if c = sep then [] :: splitAtChar sep cs
    else
      match splitAtChar sep cs with
      | [] => [[c]]
      | piece :: pieces => (c :: piece) :: pieces

/-- The value of a digit, if it is one in the base. -/
def digitOf (base : Nat) (c : Char) : Option Nat :=
  let d :=
    if '0'.toNat ≤ c.toNat ∧ c.toNat ≤ '9'.toNat then c.toNat - '0'.toNat
    else if 'a'.toNat ≤ c.toNat ∧ c.toNat ≤ 'f'.toNat then c.toNat - 'a'.toNat + 10
    else if 'A'.toNat ≤ c.toNat ∧ c.toNat ≤ 'F'.toNat then c.toNat - 'A'.toNat + 10
    else base
  if d < base then some d else none

/-- The number a text of digits continues from `acc`. -/
def digitsFrom (base acc : Nat) : List Char → Option Nat
  | [] => some acc
  | c :: cs =>
    match digitOf base c with
    | some d => digitsFrom base (acc * base + d) cs
    | none => none

/-- A text of one or more digits. -/
def digitsOf (base : Nat) (cs : List Char) : Option Nat :=
  if cs.isEmpty then none else digitsFrom base 0 cs

/-- A decimal or `0x` hexadecimal integer (R78). -/
def natOf : List Char → Option Nat
  | '0' :: 'x' :: cs => digitsOf 16 cs
  | '0' :: 'X' :: cs => digitsOf 16 cs
  | cs => digitsOf 10 cs

/-- A signed decimal or `0x` hexadecimal integer (R78); the sign is `-`, on a decimal (log 18). -/
def intOf : List Char → Option Int
  | '-' :: cs => (digitsOf 10 cs).map fun n => -(n : Int)
  | cs => (natOf cs).map fun n => (n : Int)

/-- An operand `<r>`, `<g>` or `<b>`: in [0, 255], or an assembler error (R78). -/
def byteOperand (cs : List Char) : Option Byte :=
  match natOf cs with
  | some n => if n ≤ 255 then some (BitVec.ofNat 8 n) else none
  | none => none

/-- An operand `<idx>`: in [-2^31, 2^31 - 1], or an assembler error (R78). -/
def idxOperand (cs : List Char) : Option Int :=
  match intOf cs with
  | some n => if idxEncodable n then some n else none
  | none => none

/-- The mnemonic of a command or a pseudo-instruction. -/
inductive Mnemonic where
  | setpixel
  | encode
  | transmit
  | clrpixel
  | show
  deriving DecidableEq, Repr

/-- Mnemonics are case-insensitive (R78). -/
def mnemonicOf (cs : List Char) : Option Mnemonic :=
  let up := cs.map Char.toUpper
  if up = ['S', 'E', 'T', 'P', 'I', 'X', 'E', 'L'] then some .setpixel
  else if up = ['E', 'N', 'C', 'O', 'D', 'E'] then some .encode
  else if up = ['T', 'R', 'A', 'N', 'S', 'M', 'I', 'T'] then some .transmit
  else if up = ['C', 'L', 'R', 'P', 'I', 'X', 'E', 'L'] then some .clrpixel
  else if up = ['S', 'H', 'O', 'W'] then some .show
  else none

/-- The instructions a mnemonic and its operands stand for (R78, R79). -/
def instrsOf (m : Mnemonic) (operands : List (List Char)) : Option (List Instr) :=
  match m, operands with
  | .setpixel, [i, r, g, b] =>
    match idxOperand i, byteOperand r, byteOperand g, byteOperand b with
    | some i, some r, some g, some b => some [.setpixel i r g b]
    | _, _, _, _ => none
  | .encode, [] => some [.encode]
  | .transmit, [] => some [.transmit]
  | .clrpixel, [i] => (idxOperand i).map fun i => [clrPixel i]
  | .show, [] => some showFrame
  | _, _ => none

/-- The operands after a mnemonic: none, or texts between commas. -/
def operandsOf (cs : List Char) : List (List Char) :=
  if cs.isEmpty then [] else (splitAtChar ',' cs).map trim

/-- One line: no instruction for an empty line, none at all for an error (R78). -/
def instrsOfLine (line : List Char) : Option (List Instr) :=
  let text := trim (stripComment line)
  if text.isEmpty then some []
  else
    match mnemonicOf (text.takeWhile (!isBlank ·)) with
    | some m => instrsOf m (operandsOf (trim (text.dropWhile (!isBlank ·))))
    | none => none

/-- The command words of one line (R78, R79). -/
def assembleLine (line : List Char) : Option (List CmdWord) :=
  (instrsOfLine line).map fun is => is.map encode

/-- The command words of several lines, in order; an error in any line yields no words. -/
def assembleLines : List (List Char) → Option (List CmdWord)
  | [] => some []
  | line :: lines =>
    match assembleLine line, assembleLines lines with
    | some ws, some rest => some (ws ++ rest)
    | _, _ => none

/-- The command words of a text, one command per line (R78). -/
def assemble (text : List Char) : Option (List CmdWord) := assembleLines (splitAtChar '\n' text)

/-! ### Writing an instruction as text -/

/-- A digit's character. -/
def digitChar (d : Nat) : Char := Char.ofNat ('0'.toNat + d)

/-- The last `n` decimal digits of a number, without zeros in front of them. -/
def decimalText : Nat → Nat → List Char
  | 0, _ => []
  | n + 1, v => if v < 10 then [digitChar v] else decimalText n (v / 10) ++ [digitChar (v % 10)]

/-- A number below 10^10, which every operand is, in decimal. -/
def natText (v : Nat) : List Char := decimalText 10 v

/-- A signed decimal integer (R78). -/
def intText (v : Int) : List Char := if v < 0 then '-' :: natText v.natAbs else natText v.natAbs

/-- An instruction as a line of R78, every operand in decimal. -/
def instrText : Instr → List Char
  | .setpixel idx r g b =>
    ['S', 'E', 'T', 'P', 'I', 'X', 'E', 'L', ' '] ++ intText idx ++ [',', ' '] ++ natText r.toNat ++
      [',', ' '] ++ natText g.toNat ++ [',', ' '] ++ natText b.toNat
  | .encode => ['E', 'N', 'C', 'O', 'D', 'E']
  | .transmit => ['T', 'R', 'A', 'N', 'S', 'M', 'I', 'T']

/-- CLRPIXEL (R79) as a line, its index in decimal. -/
def clrPixelText (idx : Int) : List Char :=
  ['C', 'L', 'R', 'P', 'I', 'X', 'E', 'L', ' '] ++ intText idx

end Sys2Proof.Machine
end

