-- ==== Sys2Proof/Machine/Animation.lean ====
section
/-! DEFINITION. The reference host, the Animation Controller (R162 to R173). It is no part of the block
(R5): it is a source of host events, in terms of which the spec's end-to-end properties are stated. -/

namespace Sys2Proof.Machine

/-- A colour of the palette (R162). -/
structure Rgb where
  r : Byte
  g : Byte
  b : Byte
  deriving DecidableEq, Repr

/-- `PALETTE[0..7]`, OPEN and fixed for the host's lifetime, so an argument here (R162, log 17). -/
abbrev Palette := Fin 8 → Rgb

/-- An entry with a non-zero channel: the premise of R171 (92 D19). -/
abbrev Rgb.lit (c : Rgb) : Prop := c.r ≠ 0 ∨ c.g ≠ 0 ∨ c.b ≠ 0

/-- `direction` (R163). -/
inductive Direction where
  | up
  | down
  deriving DecidableEq, Repr

/-- The integer a direction is: +1 or -1 (R163). -/
def Direction.delta : Direction → Int
  | .up => 1
  | .down => -1

/-- The reference host's state (R163). -/
structure AnimState where
  /-- `step`, an integer; that it stays in [0, N-1] is a property (R170). -/
  step : Int
  /-- `direction`. -/
  direction : Direction
  /-- `colorIndex`, in [0, 7]. -/
  colorIndex : Fin 8
  deriving DecidableEq, Repr

/-- The initial state (R164). -/
def AnimState.initial : AnimState := ⟨0, .up, 0⟩

/-- The bounces of R165: `step = 0` with `direction = -1`, and `step = N-1` with `direction = +1`. -/
abbrev AnimState.bounces (h : AnimState) : Prop :=
  (h.step = 0 ∧ h.direction = .down) ∨ (h.step = 7 ∧ h.direction = .up)

/-- The direction after any flip (R165). -/
def AnimState.nextDirection (h : AnimState) : Direction :=
  if h.step = 0 ∧ h.direction = .down then .up
  else if h.step = 7 ∧ h.direction = .up then .down
  else h.direction

/-- The palette index advances, modulo 8, on a bounce and only there (R165, 90 C2). -/
def AnimState.nextColor (h : AnimState) : Fin 8 :=
  if h.bounces then h.colorIndex + 1 else h.colorIndex

/-- The host state after `Update()` (R165): `step` moves by the direction after any flip. -/
def AnimState.next (h : AnimState) : AnimState :=
  ⟨h.step + h.nextDirection.delta, h.nextDirection, h.nextColor⟩

/-- The commands of `Update()` (R165): clear the pixel at `step - d`, with `d` the direction before any
flip (92 D30), then light the pixel at `step` with the palette colour after any advance. -/
def AnimState.commands (palette : Palette) (h : AnimState) : List Instr :=
  let colour := palette h.nextColor
  [clrPixel (h.step - h.direction.delta), .setpixel h.step colour.r colour.g colour.b]

/-- The pixel store of the frame that begins in state `h`, in store order: the pixel at `step` has the frame's
colour, and every other pixel is off (R171). -/
def AnimState.picture (palette : Palette) (h : AnimState) (a : PixAddr) : Byte :=
  let colour := palette h.nextColor
  if ((a.val / 3 : Nat) : Int) = h.step then
    (if a.val % 3 = 0 then colour.g else if a.val % 3 = 1 then colour.r else colour.b)
  else 0

/-- The host state after `f` frames (R167). -/
def AnimState.after : Nat → AnimState
  | 0 => .initial
  | f + 1 => (AnimState.after f).next

/-- One turn of the frame loop as host events (R167): `Update`, ENCODE, TRANSMIT as blocking calls, then
the delay. The sample is an argument (R161); a delay of `n` is `n` idle steps (log 17). -/
def AnimState.frame (palette : Palette) (sample : Nat) (h : AnimState) : List HostEvent :=
  (h.commands palette ++ [Instr.encode, Instr.transmit]).map (fun i => HostEvent.call (encode i)) ++
    List.replicate sample HostEvent.delay

/-- The events of frames 1 to `f`; frame `k + 1` reads the sample `samples k` (R167, R173). -/
def animationScript (palette : Palette) (samples : Nat → Nat) : Nat → List HostEvent
  | 0 => []
  | f + 1 =>
    animationScript palette samples f ++ (AnimState.after f).frame palette (samples f)

/-- A pixel is lit when one of its three bytes is not zero (R14, 92 D34). -/
def State.lit (s : State) (p : Fin 8) : Bool :=
  (List.finRange 3).any fun c => s.pixRead (pixAddr p c) ≠ 0

end Sys2Proof.Machine
end

