-- ==== Sys2Proof/Machine/Timing.lean ====
section
/-! DEFINITION. What the spec says of time and of the wire, over the port trace. No step of the block
uses any of it (R141, R142, R250). -/

namespace Sys2Proof.Machine

/-- The platform's quantities, all OPEN (92 D16, D37). The times are in nanoseconds. -/
structure Platform where
  /-- `F_CLK`, the clock rate; no rule uses its value. -/
  fClk : ℚ
  /-- `t_write`, the time of one port write. -/
  tWrite : ℚ
  /-- `t_spin`, the time of one spin. -/
  tSpin : ℚ
  /-- `PORT_ADDR`, the port's address; no rule uses it (R51). -/
  portAddr : Nat

/-- One slot, write plus hold (R141). -/
def Platform.slotTime (pl : Platform) (cfg : Config) : ℚ := pl.tWrite + cfg.slotSpin * pl.tSpin

/-- The reset phase, write plus hold (R141). -/
def Platform.resetTime (pl : Platform) (cfg : Config) : ℚ := pl.tWrite + cfg.resetSpin * pl.tSpin

/-- The premise `TIMING_OK` (R141). The spec gives no tolerance for its two approximate figures, so what
counts as about 400 ns and the bound of about 50 µs are arguments (log 21). -/
def TimingOk (aboutSlot : ℚ → Prop) (tReset : ℚ) (cfg : Config) (pl : Platform) : Prop :=
  aboutSlot (pl.slotTime cfg) ∧ tReset ≤ pl.resetTime cfg

/-- The time of one port event. -/
def Platform.eventTime (pl : Platform) : PortEvent → ℚ
  | .write _ => pl.tWrite
  | .spin => pl.tSpin

/-- The time of a trace. -/
def Platform.traceTime (pl : Platform) (trace : List PortEvent) : ℚ :=
  (trace.map pl.eventTime).sum

/-- The level on the wire, for a platform's function `WIRE` from codes to levels (92 D10). Before the
first write the block claims none (R235). -/
def State.wireLevel {α : Type} (wire : Byte → α) (s : State) : Option α :=
  match s.line with
  | .undriven => none
  | .driven b => some (wire b)

end Sys2Proof.Machine
end

