-- ==== Sys2Proof/Safety.lean ====
section
/-! DEFINITION. The terms claims use: the end of a run, the port trace of a TRANSMIT, the closed form
of the symbol buffer, and the invariant of the block. -/

namespace Sys2Proof.Machine

/-- A run of `n` steps, stopping at the first fault or refusal: `Host.Core.run` of the machine, at the
types of the model. -/
def runSteps : Nat → State → Outcome
  | 0, s => .next s
  | n + 1, s =>
    match step s with
    | .next t => runSteps n t
    | .fault r => .fault r
    | .refused r => .refused r

/-- A run is at an end state only when `TX.phase = READY` and no fault is recorded (R173, R204,
92 D36). -/
abbrev State.final (s : State) : Prop := s.tx.phase = .ready ∧ s.fault.kind = .none

/-- The block will perform a command: it is not stopped and not busy (R160, R203, R204). -/
abbrev State.accepts (s : State) : Prop := s.stopped = false ∧ s.busy = false

/-- In the coming step the host does nothing: it has no event, or it is blocked in a call (R160). -/
abbrev State.hostWaits (s : State) : Prop :=
  s.stopped = false ∧ ∀ e ∈ s.host.head?, e.blocking = true

/-- The reset table of R35, but for its last row, CFG. -/
structure State.AtReset (s : State) : Prop where
  pix : ∀ a, s.pixRead a = 0x00
  sym : ∀ a, s.symRead a = none
  symValid : s.symValid = false
  tx : s.tx = ⟨.ready, 0, 0⟩
  line : s.line = .undriven
  trace : s.trace = []
  fault : s.fault = ⟨.none, 0⟩

/-- The events of one slot: the write of a byte and its hold (R133). -/
def slotEvents (cfg : Config) (b : Byte) : List PortEvent :=
  .write b :: List.replicate cfg.slotSpin .spin

/-- The events of a TRANSMIT that finds `bytes` in SYM (R137). -/
def transmitEvents (cfg : Config) (bytes : SymAddr → Byte) : List PortEvent :=
  (.write cfg.codeIdle :: List.replicate cfg.resetSpin .spin) ++
    (List.finRange 576).flatMap (fun a => slotEvents cfg (bytes a)) ++ [.write cfg.codeIdle]

/-- The steps of a TRANSMIT, its issue among them (R137). -/
def transmitSteps (cfg : Config) : Nat := cfg.resetSpin + 576 * (1 + cfg.slotSpin) + 3

/-- R113's closed form: the byte of SYM at `a` that encodes a pixel store of the values `pix`. -/
def frameByteOf (cfg : Config) (pix : PixAddr → Byte) (a : SymAddr) : Byte :=
  if a.val % 3 = 1 then
    level cfg
      ((pix ⟨3 * (a.val / 72) + a.val % 72 / 24, by omega⟩).getLsbD (7 - a.val % 24 / 3))
  else cfg.codeIdle

/-- The byte an ENCODE in state `s` leaves at `SYM[a]`. -/
def State.frameByte (s : State) (a : SymAddr) : Byte := frameByteOf s.cfg s.pixRead a

/-- One of the three level codes (R28). -/
abbrev isLevelCode (cfg : Config) (b : Byte) : Prop :=
  b = cfg.codeIdle ∨ b = cfg.codeLow ∨ b = cfg.codeHigh

/-- The line after a trace: its last write (R29). -/
def lineAfter (trace : List PortEvent) : Line :=
  trace.foldl (fun l e => match e with | .write b => .driven b | .spin => l) .undriven

/-- What SYM may hold at an index: `CODE_IDLE` in slots 0 and 2, a bit's level in slot 1 (R110). -/
abbrev fitsSlot (cfg : Config) (a : Nat) (b : Byte) : Prop :=
  if a % 3 = 1 then b = cfg.codeLow ∨ b = cfg.codeHigh else b = cfg.codeIdle

/-- PIX and SYM are in canonical form, within their sizes (R24, R25). -/
abbrev State.spacesOk (s : State) : Prop :=
  Memory.wf 24 pixBlank s.pix ∧ Memory.wf 576 symBlank s.sym

/-- SYM is unwritten until SYM_VALID is 1, and then holds a symbol byte everywhere (R25, R26, R35). -/
abbrev State.symOk (s : State) : Prop :=
  if s.symValid then ∀ a : SymAddr, ∃ b ∈ s.symRead a, fitsSlot s.cfg a.val b else s.sym = []

/-- `TX`'s fields agree with its phase, and the spins left are within the hold they belong to (R27, R130
to R136). A transmission implies a filled buffer (R202). -/
abbrev State.txOk (s : State) : Prop :=
  match s.tx.phase with
  | .ready => s.tx.idx = 0 ∧ s.tx.spin = 0
  | .reset => s.tx.idx = 0 ∧ s.tx.spin ≤ s.cfg.resetSpin ∧ s.symValid = true
  | .stream => s.tx.spin ≤ s.cfg.slotSpin ∧ s.symValid = true

/-- `LINE` is the last byte of `TRACE`, and every byte written is a level code (R28, R29). -/
abbrev State.portOk (s : State) : Prop :=
  s.line = lineAfter s.trace ∧ ∀ e ∈ s.trace, ∀ b, e = .write b → isLevelCode s.cfg b

/-- `FAULT` records what its kind says (R201 to R204): nothing, an illegal word, the TRANSMIT word with
no ENCODE before it, or a legal word during a TRANSMIT. -/
abbrev State.faultOk (s : State) : Prop :=
  match s.fault.kind with
  | .none => s.fault.cmd = 0
  | .illegalCommand => (decode s.fault.cmd).toOption = none
  | .notEncoded => s.fault.cmd = encode .transmit ∧ s.symValid = false ∧ s.busy = false
  | .busy => (decode s.fault.cmd).toOption ≠ none ∧ s.busy = true

/-- The invariant of the block. -/
structure State.Inv (s : State) : Prop where
  spaces : s.spacesOk
  symbols : s.symOk
  transmitter : s.txOk
  port : s.portOk
  faults : s.faultOk

end Sys2Proof.Machine
end

