-- ==== Sys2Proof/Certificates/Slice0/Obligations.lean ====
section
/-! DEFINITION. The statements about the model, for the provers. Each docstring names the rule of the
spec it formalises, or says that it rests on a choice of the model. Where a statement speaks of the host's
events, the list `host` that holds them is the model's own (log 3), and so are the two kinds of event, the
one that waits for control to return and the one that comes at once (log 4). -/

open Sys2Proof Sys2Proof.Machine

/-! ### Reset -/

/-- R35, R230, R231: an instance starts with the values of the reset table. A reset event that comes now
gives those values from any state of a block, in the middle of a TRANSMIT or stopped by a fault too, and
keeps CFG. (What the host does next is the model's own list, log 3; a reset may wait or come at once, log 4; the
events before it on a stopped block, log 6.) -/
def Obligations.ResetGivesTheResetTable : Prop :=
  State.reset.AtReset ∧
  ∀ (s : State) (e : HostEvent) (rest : List HostEvent), s.host = e :: rest → e.action = .reset →
    (e.blocking = false ∨ s.busy = false ∨ s.stopped = true) →
    ∃ t, step s = .next t ∧ t.AtReset ∧ t.cfg = s.cfg ∧ t.host = rest

/-- R232, R217: with no event to come, a block at READY with no fault executes nothing and keeps all its
state; so it does in each step of the host's delay. That the machine then makes a step, one that answers
the same state, and neither faults nor refuses, is the model's reading (log 5: R135 enables nothing at
READY). The host's list: log 3, log 4. -/
def Obligations.IdleBlockKeepsItsState : Prop :=
  ∀ s : State, s.accepts →
    (s.host = [] → step s = .next s) ∧
    (∀ rest blocking, s.host = ⟨.idle, blocking⟩ :: rest → step s = .next { s with host := rest })

/-- R31: a configuration is constructed exactly when CODE_LOW < CODE_HIGH, with the values given.
(The refusal as `none`: log 2.) -/
def Obligations.ConfigurationNeedsLowBelowHigh : Prop :=
  ∀ (idle low high : Byte) (slotSpin resetSpin : Nat),
    (high.toNat ≤ low.toNat → Config.make? idle low high slotSpin resetSpin = none) ∧
    (low.toNat < high.toNat → ∃ c, Config.make? idle low high slotSpin resetSpin = some c ∧
      c.codeIdle = idle ∧ c.codeLow = low ∧ c.codeHigh = high ∧ c.slotSpin = slotSpin ∧
      c.resetSpin = resetSpin)

/-- R31: no step changes CFG, whatever the host does.
(The host's list: log 3, log 4.) -/
def Obligations.NoStepChangesTheConfiguration : Prop :=
  ∀ s t : State, step s = .next t → t.cfg = s.cfg

/-! ### Encoding -/

/-- R80 (and the vectors DEC-3, DEC-9 to DEC-13): words written out from the spec decode to what they
stand for, and the encoder gives the words of R80.
(The names of the reasons: log 19.) -/
def Obligations.SpecWordsDecode : Prop :=
  decode 0x01FF000000000000 = .ok (.setpixel 0 0xFF 0 0) ∧
  decode 0x0112345600000003 = .ok (.setpixel 3 0x12 0x34 0x56) ∧
  decode 0x01000000FFFFFFFF = .ok (.setpixel (-1) 0 0 0) ∧
  decode 0x0101020300000008 = .ok (.setpixel 8 1 2 3) ∧
  decode 0x0200000000000000 = .ok .encode ∧
  decode 0x0300000000000000 = .ok .transmit ∧
  encode (.setpixel 0 0xFF 0 0) = 0x01FF000000000000 ∧
  encode (.setpixel 3 0x12 0x34 0x56) = 0x0112345600000003 ∧
  encode (.setpixel (-1) 0 0 0) = 0x01000000FFFFFFFF ∧
  encode (.setpixel 8 1 2 3) = 0x0101020300000008 ∧
  encode .encode = 0x0200000000000000 ∧
  encode .transmit = 0x0300000000000000 ∧
  decode 0x0100000080000000 = .ok (.setpixel (-2147483648) 0 0 0) ∧
  decode 0x0200000000000001 = .error (.reservedBits 0x02) ∧
  decode 0x0380000000000000 = .error (.reservedBits 0x03) ∧
  decode 0x0000000000000000 = .error (.unassignedOp 0x00) ∧
  decode 0x0400000000000000 = .error (.unassignedOp 0x04) ∧
  decode 0xFF00000000000000 = .error (.unassignedOp 0xFF)

/-- R72, R74: decoding, said in arithmetic on the word's number. The index is the two's-complement value
of the low 32 bits. -/
def Obligations.DecodeReadsTheFields : Prop :=
  ∀ w : CmdWord,
    (w.toNat / 2 ^ 56 = 1 → ∃ (idx : Int) (r g b : Byte), decode w = .ok (.setpixel idx r g b) ∧
      r.toNat = w.toNat / 2 ^ 48 % 2 ^ 8 ∧ g.toNat = w.toNat / 2 ^ 40 % 2 ^ 8 ∧
      b.toNat = w.toNat / 2 ^ 32 % 2 ^ 8 ∧
      idx = if w.toNat % 2 ^ 32 < 2 ^ 31 then ((w.toNat % 2 ^ 32 : Nat) : Int)
        else ((w.toNat % 2 ^ 32 : Nat) : Int) - 2 ^ 32) ∧
    (w.toNat = 2 * 2 ^ 56 → decode w = .ok .encode) ∧
    (w.toNat = 3 * 2 ^ 56 → decode w = .ok .transmit) ∧
    (w.toNat / 2 ^ 56 ≠ 1 → w.toNat ≠ 2 * 2 ^ 56 → w.toNat ≠ 3 * 2 ^ 56 → ∃ e, decode w = .error e)

/-- Decoding the word of a well-formed instruction gives the instruction back, with every operand at
every value the encoding admits (R71, R72, R74). -/
def Obligations.DecodeAfterEncode : Prop :=
  ∀ i : Instr, i.wf → decode (encode i) = .ok i

/-- Every legal word is the word of the one well-formed instruction it decodes to, so no bit of a legal
word is without meaning (R74, R75). -/
def Obligations.EncodeAfterDecode : Prop :=
  ∀ (w : CmdWord) (i : Instr), decode w = .ok i → i.wf ∧ encode i = w

/-! ### The step -/

/-- A step runs the decoded instruction: when the host's next event issues a legal word, and comes now,
the step is `exec` of what the word decodes to, the event taken off the host's list. The word placed by
`withFetchWord` comes in the very next step (log 23). -/
def Obligations.StepRunsTheIssuedCommand : Prop :=
  (∀ (s : State) (e : HostEvent) (rest : List HostEvent) (w : CmdWord) (i : Instr),
    s.stopped = false → s.host = e :: rest → e.action = .issue w →
    (e.blocking = false ∨ s.busy = false) → decode w = .ok i →
    step s = exec i { s with host := rest }) ∧
  (∀ (s : State) (w : CmdWord) (i : Instr), s.stopped = false → decode w = .ok i →
    step (s.withFetchWord 64 w.toNat) = exec i s)

/-- R62, R160: while a TRANSMIT runs, a blocking event waits. The step is the transmitter's micro-step,
and it leaves the host's list as it is. When the host lets a step pass, the step is the micro-step too, and
takes that event off the list.
(The host's list: log 3, log 4.) -/
def Obligations.BlockingCallsWaitForTheTransmitter : Prop :=
  (∀ s : State, s.hostWaits → s.busy = true →
    step s = microStep s ∧ ∀ t, step s = .next t → t.host = s.host) ∧
  (∀ (s : State) (rest : List HostEvent), s.stopped = false → s.host = .pass :: rest →
    step s = microStep { s with host := rest } ∧ ∀ t, step s = .next t → t.host = rest)

/-! ### Faults -/

/-- R201, R206 (and R202, R203): which fault the arrival of a word records, and in which priority, with the
cause codes of R30. The arrival always completes: it is performed or it records a fault. -/
def Obligations.FaultPriorityOfAnArrivingWord : Prop :=
  (FaultKind.none.code = 0 ∧ FaultKind.illegalCommand.code = 1 ∧ FaultKind.notEncoded.code = 2 ∧
    FaultKind.busy.code = 3) ∧
  ∀ (s : State) (w : CmdWord), s.stopped = false →
    ∃ t, step (s.withCommand w) = .next t ∧
      t.fault =
        match decode w with
        | .error _ => ⟨.illegalCommand, w⟩
        | .ok i =>
          if s.busy then ⟨.busy, w⟩
          else if i = .transmit ∧ s.symValid = false then ⟨.notEncoded, w⟩
          else s.fault

/-- R205: when the arrival of a word leaves a fault recorded, it has changed nothing but FAULT, and the
events already in TRACE stay. -/
def Obligations.FaultingCommandChangesOnlyFault : Prop :=
  ∀ (s t : State) (w : CmdWord), s.stopped = false → step (s.withCommand w) = .next t →
    t.stopped = true → t = { s with fault := t.fault } ∧ t.fault.cmd = w

/-- R203: a legal command word that arrives during a TRANSMIT records BUSY, cause code 3, with the word, and
has none of its own effect; `exec`, which is given the instruction, records the instruction's word (log 8). -/
def Obligations.BusyBlockTurnsEveryCommandAway : Prop :=
  FaultKind.busy.code = 3 ∧
  ∀ (i : Instr) (s : State), s.stopped = false → s.busy = true →
    exec i s = .next { s with fault := ⟨.busy, encode i⟩ } ∧
    ∀ w, decode w = .ok i → step (s.withCommand w) = .next { s with fault := ⟨.busy, w⟩ }

/-- R204, R209: a block with a recorded fault accepts no command, and makes no step but the host's next
reset. That without a reset to come the step ends in the fault `stopped`, and that events before the
reset are lost, is the model's reading (log 6). -/
def Obligations.StoppedBlockTakesOnlyAReset : Prop :=
  ∀ s : State, s.fault.kind ≠ .none →
    (∀ i, exec i s = .fault .stopped) ∧
    ((∀ e ∈ s.host, e.action ≠ .reset) → step s = .fault .stopped) ∧
    (∀ before e after, s.host = before ++ e :: after → (∀ d ∈ before, d.action ≠ .reset) →
      e.action = .reset → ∃ t, step s = .next t ∧ t.AtReset ∧ t.cfg = s.cfg ∧ t.host = after)

/-- R204, R30: no step but a reset ends a recorded fault, and none but an arriving word records one, which is
then the word it records. A step that records none leaves FAULT as it was, or is a reset. That the reset of
a stopped block may stand anywhere in the host's list is the model's reading (log 6).
(The host's list: log 3, log 4.) -/
def Obligations.OnlyAResetClearsAFault : Prop :=
  ∀ s t : State, step s = .next t →
    (s.fault.kind ≠ .none → t.fault = ⟨.none, 0⟩ ∧ ∃ e ∈ s.host, e.action = .reset) ∧
    (s.fault.kind = .none → t.fault.kind ≠ .none →
      ∃ e rest, s.host = e :: rest ∧ e.action = .issue t.fault.cmd) ∧
    (s.fault.kind = .none → t.fault.kind = .none →
      t.fault = s.fault ∨ (t.fault = ⟨.none, 0⟩ ∧ ∃ e ∈ s.host.head?, e.action = .reset))

/-! ### SETPIXEL -/

/-- R100: SETPIXEL in full. During a TRANSMIT it takes the BUSY fault. Otherwise an index out of range writes
nothing, and an index in range gets the three values, green first, while every other byte of PIX and every
other part of the state stays. That the BUSY fault records `encode` of the instruction, for every index, is
DEDUCED (log 8). -/
def Obligations.SetpixelWritesOnePixel : Prop :=
  ∀ (idx : Int) (r g b : Byte) (s : State), s.stopped = false →
    (s.busy = true → exec (.setpixel idx r g b) s =
      .next { s with fault := ⟨.busy, encode (.setpixel idx r g b)⟩ }) ∧
    (s.busy = false → idx < 0 ∨ 8 ≤ idx → exec (.setpixel idx r g b) s = .next s) ∧
    (s.busy = false → ∀ p : Fin 8, idx = p.val →
      ∃ t, exec (.setpixel idx r g b) s = .next t ∧ t = { s with pix := t.pix } ∧
        (∀ a : PixAddr, t.pixRead a =
          if a.val = 3 * p.val then g
          else if a.val = 3 * p.val + 1 then r
          else if a.val = 3 * p.val + 2 then b
          else s.pixRead a))

/-- R101, R102: an index out of range, on either side, changes nothing at all and never faults. -/
def Obligations.SetpixelOutOfRangeChangesNothing : Prop :=
  ∀ (idx : Int) (r g b : Byte) (s : State), s.accepts → idx < 0 ∨ 8 ≤ idx →
    exec (.setpixel idx r g b) s = .next s

/-- R103: of two SETPIXELs to one index, in or out of range, only the later one's values stand: for a
canonical PIX the state is that of the later one alone.
(The canonical form: log 20.) -/
def Obligations.LaterSetpixelReplacesTheEarlier : Prop :=
  ∀ (idx : Int) (r g b r' g' b' : Byte) (s t u : State), Memory.wf 24 pixBlank s.pix → s.accepts →
    exec (.setpixel idx r g b) s = .next t → exec (.setpixel idx r' g' b') t = .next u →
    exec (.setpixel idx r' g' b') s = .next u

/-- The frame of SETPIXEL, in every state in which it answers a next state: FAULT can change only while the
block is busy, PIX only while it is not, and only in the bytes of the pixel the index names (R100, R101,
R203). -/
def Obligations.SetpixelFrame : Prop :=
  ∀ (idx : Int) (r g b : Byte) (s t : State), exec (.setpixel idx r g b) s = .next t →
    t = { s with pix := t.pix, fault := t.fault } ∧
    (s.busy = false → t.fault = s.fault) ∧ (s.busy = true → t.pix = s.pix) ∧
    (∀ a : PixAddr, (∀ p c, pixelOf idx = some p → a ≠ pixAddr p c) → t.pixRead a = s.pixRead a)

/-- R24: only SETPIXEL writes PIX; a reset apart, a step that changes it is the arrival of a SETPIXEL
word.
(The host's list: log 3, log 4.) -/
def Obligations.OnlySetpixelWritesPix : Prop :=
  ∀ s t : State, s.stopped = false → step s = .next t → t.pix ≠ s.pix →
    ∃ e rest, s.host = e :: rest ∧
      (e.action = .reset ∨
        ∃ w idx r g b, e.action = .issue w ∧ decode w = .ok (.setpixel idx r g b))

/-! ### ENCODE -/

/-- R110: the rule's loops, one byte write after another, are what ENCODE does to a canonical SYM, the BUSY
fault apart.
(The canonical form: log 20.) -/
def Obligations.EncodeIsTheLoopOfTheRule : Prop :=
  ∀ s : State, s.stopped = false → Memory.wf 576 symBlank s.sym →
    exec .encode s =
      if s.busy then .next { s with fault := ⟨.busy, 0x0200000000000000⟩ }
      else .next { s.encodeLoop with symValid := true }

/-- R113 (with R112 and R114): every byte of SYM after an ENCODE, by the index formula, by its inverse and in
closed form. The ENCODE completes and changes nothing but SYM and SYM_VALID. -/
def Obligations.EncodeFollowsTheIndexFormula : Prop :=
  ∀ s : State, s.accepts →
    ∃ t, exec .encode s = .next t ∧ t = { s with sym := t.sym, symValid := true } ∧
      (∀ (p : Fin 8) (c : Fin 3) (k : Fin 8) (j : Fin 3) (a : SymAddr),
        a.val = 72 * p.val + 24 * c.val + 3 * k.val + j.val →
        p.val = a.val / 72 ∧ c.val = a.val % 72 / 24 ∧ k.val = a.val % 24 / 3 ∧ j.val = a.val % 3 ∧
        t.symRead a = some
          (if j = 1 then
            (if (s.pixRead (pixAddr p c)).getLsbD (7 - k.val) then s.cfg.codeHigh else s.cfg.codeLow)
          else s.cfg.codeIdle)) ∧
      (∀ a : SymAddr, t.symRead a = some (s.frameByte a))

/-- R115: SYM after an ENCODE depends only on PIX and the three codes; not on the earlier SYM, on TX, on
LINE, or on anything else. -/
def Obligations.EncodeDependsOnPixAndCodesOnly : Prop :=
  ∀ s s' t t' : State, s.accepts → s'.accepts → (∀ a, s.pixRead a = s'.pixRead a) →
    s.cfg.codeIdle = s'.cfg.codeIdle → s.cfg.codeLow = s'.cfg.codeLow →
    s.cfg.codeHigh = s'.cfg.codeHigh → exec .encode s = .next t → exec .encode s' = .next t' →
    t.sym = t'.sym

/-- R115: a second ENCODE right after the first changes nothing. -/
def Obligations.EncodeTwiceIsEncodeOnce : Prop :=
  ∀ s t : State, s.accepts → exec .encode s = .next t → exec .encode t = .next t

/-- R116: a channel value 0xFF puts CODE_HIGH in slot 1 of all its eight symbols, 0x00 CODE_LOW. -/
def Obligations.SaturatedChannelsAreUniform : Prop :=
  ∀ (s t : State) (p : Fin 8) (c : Fin 3) (k : Fin 8), s.accepts → exec .encode s = .next t →
    (s.pixRead (pixAddr p c) = 0xFF →
      t.symRead (slotAddr (bitNumber p c k) 1) = some s.cfg.codeHigh) ∧
    (s.pixRead (pixAddr p c) = 0x00 →
      t.symRead (slotAddr (bitNumber p c k) 1) = some s.cfg.codeLow)

/-- R117: of the 576 positions, 384 are slot-0 or slot-2 bytes and hold CODE_IDLE; of the 192 slot-1 bytes,
as many hold CODE_HIGH as PIX has 1 bits, and the others CODE_LOW. -/
def Obligations.CodeCountsAfterEncode : Prop :=
  ∀ s t : State, s.accepts → exec .encode s = .next t →
    let ones := ((List.finRange 24).map fun a => Byte.popcount (s.pixRead a)).sum
    ((List.finRange 576).countP fun a => a.val % 3 ≠ 1 ∧ t.symRead a = some s.cfg.codeIdle) = 384 ∧
    ((List.finRange 576).countP fun a => a.val % 3 = 1 ∧ t.symRead a = some s.cfg.codeHigh) = ones ∧
    ((List.finRange 576).countP fun a => a.val % 3 = 1 ∧ t.symRead a = some s.cfg.codeLow) + ones = 192

/-- The frame of ENCODE, in every state in which it answers a next state: FAULT can change only while the
block is busy, SYM and SYM_VALID only while it is not, and nothing else ever (R110, R203). -/
def Obligations.EncodeFrame : Prop :=
  ∀ s t : State, exec .encode s = .next t →
    t = { s with sym := t.sym, symValid := t.symValid, fault := t.fault } ∧
    (s.busy = false → t.fault = s.fault) ∧
    (s.busy = true → t.sym = s.sym ∧ t.symValid = s.symValid) ∧
    (∀ a, t.pixRead a = s.pixRead a)

/-- R25, R26: only ENCODE writes SYM and SYM_VALID; a reset apart, a step that changes one of them is the
arrival of the ENCODE word, and it leaves SYM_VALID at 1.
(The host's list: log 3, log 4.) -/
def Obligations.OnlyEncodeWritesSym : Prop :=
  ∀ s t : State, s.stopped = false → step s = .next t → (t.sym ≠ s.sym ∨ t.symValid ≠ s.symValid) →
    ∃ e rest, s.host = e :: rest ∧
      (e.action = .reset ∨ (e.action = .issue 0x0200000000000000 ∧ t.symValid = true))

/-! ### TRANSMIT -/

/-- R130, R202: what the issue of a TRANSMIT does: the BUSY fault, the NOT_ENCODED fault (cause code 2, no port
write), and otherwise the reset-phase write and TX at (RESET, 0, RESET_SPIN). -/
def Obligations.TransmitStartsTheResetPhase : Prop :=
  FaultKind.notEncoded.code = 2 ∧
  ∀ s : State, s.stopped = false →
    (s.busy = true → exec .transmit s = .next { s with fault := ⟨.busy, 0x0300000000000000⟩ }) ∧
    (s.busy = false → s.symValid = false →
      exec .transmit s = .next { s with fault := ⟨.notEncoded, 0x0300000000000000⟩ }) ∧
    (s.busy = false → s.symValid = true →
      exec .transmit s = .next
        { s with
          line := .driven s.cfg.codeIdle
          trace := s.trace ++ [.write s.cfg.codeIdle]
          tx := ⟨.reset, 0, s.cfg.resetSpin⟩ })

/-- The frame of TRANSMIT, in every state in which it answers a next state: PIX, SYM, SYM_VALID, CFG and
the host's list stay; LINE, TRACE and TX change only when no fault is recorded (R130, R202, R203). -/
def Obligations.TransmitFrame : Prop :=
  ∀ s t : State, exec .transmit s = .next t →
    t = { s with tx := t.tx, line := t.line, trace := t.trace, fault := t.fault } ∧
    (t.fault ≠ s.fault → t = { s with fault := t.fault }) ∧
    (∀ a, t.pixRead a = s.pixRead a) ∧ (∀ a, t.symRead a = s.symRead a)

/-- R131, R134: a hold is one event S and one spin less, and nothing else.
(The host's list: log 3, log 4.) -/
def Obligations.HoldSpinsOnce : Prop :=
  ∀ s : State, s.hostWaits → s.tx.phase ≠ .ready → 0 < s.tx.spin →
    step s = .next
      { s with trace := s.trace ++ [.spin], tx := ⟨s.tx.phase, s.tx.idx, s.tx.spin - 1⟩ }

/-- R132: the reset hold ends without a port event.
(The host's list: log 3, log 4.) -/
def Obligations.ResetHoldEndsSilently : Prop :=
  ∀ s : State, s.hostWaits → s.tx.phase = .reset → s.tx.spin = 0 →
    step s = .next { s with tx := ⟨.stream, 0, 0⟩ }

/-- R133: the next symbol byte goes out, the index moves on by one, and the hold of SLOT_SPIN begins.
(The host's list: log 3, log 4.) -/
def Obligations.SymbolByteGoesOut : Prop :=
  ∀ (s : State) (a : SymAddr) (next : Fin 577) (b : Byte), s.hostWaits → s.tx = ⟨.stream, a.castSucc, 0⟩ →
    next.val = a.val + 1 → s.symRead a = some b →
    step s = .next
      { s with
        line := .driven b
        trace := s.trace ++ [.write b]
        tx := ⟨.stream, next, s.cfg.slotSpin⟩ }

/-- R136: after the last hold the idle write completes the TRANSMIT, and no hold follows.
(The host's list: log 3, log 4.) -/
def Obligations.IdleWriteCompletesTheTransmit : Prop :=
  ∀ s : State, s.hostWaits → s.tx = ⟨.stream, 576, 0⟩ →
    step s = .next
      { s with
        line := .driven s.cfg.codeIdle
        trace := s.trace ++ [.write s.cfg.codeIdle]
        tx := ⟨.ready, 0, 0⟩ }

/-- R135 (with R131, R132, R133 and R136): exactly one micro-step is enabled when the phase is not READY, and
none when it is; the step of the transmitter is the effect of the one that is enabled, and nothing when none
is. (That a read of SYM where nothing was written ends in a fault: log 9. That the state stays when nothing
is enabled: log 5.) -/
def Obligations.ExactlyOneMicroStepIsEnabled : Prop :=
  ∀ s : State,
    (s.tx.phase ≠ .ready → ∃ m : MicroStep, m.guard s.tx = true ∧ ∀ m', m'.guard s.tx = true → m' = m) ∧
    (s.tx.phase = .ready → ∀ m : MicroStep, m.guard s.tx = false) ∧
    ((∀ m : MicroStep, m.guard s.tx = false) → microStep s = .next s) ∧
    (MicroStep.hold.guard s.tx = true → microStep s = .next
      { s with trace := s.trace ++ [.spin], tx := ⟨s.tx.phase, s.tx.idx, s.tx.spin - 1⟩ }) ∧
    (MicroStep.endReset.guard s.tx = true → microStep s = .next
      { s with tx := ⟨.stream, 0, s.tx.spin⟩ }) ∧
    (MicroStep.symbolByte.guard s.tx = true →
      ∃ (a : SymAddr) (next : Fin 577), s.tx.idx.val = a.val ∧ next.val = a.val + 1 ∧
        (∀ b, s.symRead a = some b → microStep s = .next
          { s with
            line := .driven b
            trace := s.trace ++ [.write b]
            tx := ⟨s.tx.phase, next, s.cfg.slotSpin⟩ }) ∧
        (s.symRead a = none → microStep s = .fault .unwrittenSymbol)) ∧
    (MicroStep.idleWrite.guard s.tx = true → microStep s = .next
      { s with
        line := .driven s.cfg.codeIdle
        trace := s.trace ++ [.write s.cfg.codeIdle]
        tx := ⟨.ready, 0, s.tx.spin⟩ })

/-- R137, R138, R139: a TRANSMIT issued with a filled buffer, by a host that then waits, completes after
exactly the steps of R137, appends exactly the events of R137, and ends in the state of R138. In every
earlier step after the issue the block is busy.
(The host's list: log 3, log 4.) -/
def Obligations.TransmitSendsTheWholeBuffer : Prop :=
  ∀ (s : State) (bytes : SymAddr → Byte) (rest : List HostEvent), s.accepts → s.symValid = true →
    (∀ a, s.symRead a = some (bytes a)) → (∀ e ∈ rest.head?, e.blocking = true) →
    runSteps (transmitSteps s.cfg)
        { s with host := HostEvent.call (encode .transmit) :: rest } =
      .next
        { s with
          tx := ⟨.ready, 0, 0⟩
          line := .driven s.cfg.codeIdle
          trace := s.trace ++ transmitEvents s.cfg bytes
          host := rest } ∧
    ∀ k, 0 < k → k < transmitSteps s.cfg →
      ∃ t : State, runSteps k
          { s with host := HostEvent.call (encode .transmit) :: rest } = .next t ∧
        t.busy = true ∧ t.host = rest

/-- The length of R137's trace, and the place of each symbol byte in it (vector TX-8). -/
def Obligations.SymbolBytesStandAtTheirSlots : Prop :=
  ∀ (cfg : Config) (bytes : SymAddr → Byte),
    (transmitEvents cfg bytes).length =
      1 + cfg.resetSpin + 576 * (1 + cfg.slotSpin) + 1 ∧
    (∀ a : Fin 576, (transmitEvents cfg bytes)[1 + cfg.resetSpin +
      a.val * (1 + cfg.slotSpin)]? = some (.write (bytes a))) ∧
    (∀ (a : Fin 576) (n : Nat), n < cfg.slotSpin → (transmitEvents cfg bytes)[1 +
      cfg.resetSpin + a.val * (1 + cfg.slotSpin) + 1 + n]? = some .spin)

/-- R60: a SETPIXEL between an ENCODE and a TRANSMIT does not reach the wire. The run of the three
completes, and what it sends is the encoding of PIX as it stood at the ENCODE.
(The host's list: log 3, log 4.) -/
def Obligations.StaleBufferIsSent : Prop :=
  ∀ (s : State) (i : Instr) (idx : Int) (r g b : Byte), s.accepts → i = .setpixel idx r g b → i.wf →
    ∃ t : State, runSteps (2 + transmitSteps s.cfg)
        { s with host := [.call (encode .encode), .call (encode i), .call (encode .transmit)] } =
          .next t ∧
      t.final ∧ t.host = [] ∧ t.trace = s.trace ++ transmitEvents s.cfg s.frameByte ∧
      exec i s = .next { s with pix := t.pix }

/-- R138: a second TRANSMIT with no ENCODE between sends the same bytes again.
(The host's list: log 3, log 4.) -/
def Obligations.SecondTransmitRepeatsTheFirst : Prop :=
  ∀ (s : State) (bytes : SymAddr → Byte), s.accepts → s.symValid = true →
    (∀ a, s.symRead a = some (bytes a)) →
    ∃ t : State, runSteps (2 * transmitSteps s.cfg)
        { s with host := [.call (encode .transmit), .call (encode .transmit)] } = .next t ∧
      t.final ∧
      t.trace = s.trace ++ transmitEvents s.cfg bytes ++
        transmitEvents s.cfg bytes

/-- R29, R140: a reset apart, a step appends at most one event to TRACE; LINE changes only with a write
event, and is then the byte written; and only a TRANSMIT word that arrives or a TRANSMIT that runs makes
an event.
(The host's list: log 3, log 4.) -/
def Obligations.OnlyTransmitWritesThePort : Prop :=
  ∀ s t : State, s.stopped = false → (∀ e ∈ s.host.head?, e.action ≠ .reset) → step s = .next t →
    (t.trace = s.trace ∧ t.line = s.line) ∨
    ((s.busy = true ∨ ∃ e ∈ s.host.head?, e.action = .issue 0x0300000000000000) ∧
      ((t.trace = s.trace ++ [.spin] ∧ t.line = s.line) ∨
        ∃ b, t.trace = s.trace ++ [.write b] ∧ t.line = .driven b))

/-! ### The invariant -/

/-- The invariant of the block holds right after reset. -/
def Obligations.InvariantAtReset : Prop := State.reset.Inv

/-- Every step keeps the invariant, whatever the host does: the spaces stay canonical, SYM stays unwritten
until SYM_VALID and full of level codes after it, TX's fields agree with its phase and TX.spin never
exceeds its hold, LINE is the last byte of a trace of level codes, and FAULT records what its kind says
(R25 to R30, R201 to R204).
(The canonical form: log 20; the host's list: log 3, log 4.) -/
def Obligations.EveryStepKeepsTheInvariant : Prop :=
  ∀ s t : State, s.Inv → step s = .next t → t.Inv

/-- In a state that meets the invariant, a block that is not stopped always makes a step: no word, legal or
not, and no micro-step ends the machine (R135, R139, R200). That a block at READY with no event to come makes
a step, one that answers the same state, is the model's reading (log 5: R135 enables nothing there). The
host's list: log 3, log 4. -/
def Obligations.UnstoppedBlockAlwaysSteps : Prop :=
  ∀ s : State, s.Inv → s.stopped = false → ∃ t, step s = .next t

/-! ### Assembler -/

/-- R78, R79: every line of R80's table assembles to its word, mnemonics are case-insensitive, a comment is
dropped, CLRPIXEL and SHOW expand, and an operand out of range yields no word. (The lexical details are
the model's, log 18.) -/
def Obligations.AssemblerTexts : Prop :=
  assembleLine "SETPIXEL 0, 0xFF, 0, 0".toList = some [0x01FF000000000000] ∧
  assembleLine "SETPIXEL 3, 0x12, 0x34, 0x56".toList = some [0x0112345600000003] ∧
  assembleLine "SETPIXEL -1, 0, 0, 0".toList = some [0x01000000FFFFFFFF] ∧
  assembleLine "CLRPIXEL -1".toList = some [0x01000000FFFFFFFF] ∧
  assembleLine "SETPIXEL 8, 1, 2, 3".toList = some [0x0101020300000008] ∧
  assembleLine "encode ; rebuild".toList = some [0x0200000000000000] ∧
  assembleLine "TRANSMIT".toList = some [0x0300000000000000] ∧
  assembleLine "SHOW".toList = some [0x0200000000000000, 0x0300000000000000] ∧
  assembleLine "SETPIXEL 0, 256, 0, 0".toList = none ∧
  assembleLine "SETPIXEL 2147483648, 0, 0, 0".toList = none

/-- R78: an operand out of range is an error and yields no command word. An operand `<r>`, `<g>` or `<b>` that
reads as a number is that number in [0, 255] and nothing otherwise; an `<idx>` that reads as an integer is
that integer in [-2^31, 2^31 - 1] and nothing otherwise; a line yields well-formed instructions only; and
every word of a text is the word of one of them.
(Lexical details: log 18.) -/
def Obligations.AssemblerYieldsLegalWords : Prop :=
  (∀ (cs : List Char) (n : Nat), natOf cs = some n →
    (n ≤ 255 → ∃ v : Byte, byteOperand cs = some v ∧ v.toNat = n) ∧
    (255 < n → byteOperand cs = none)) ∧
  (∀ (cs : List Char) (n : Int), intOf cs = some n →
    (-2 ^ 31 ≤ n → n ≤ 2 ^ 31 - 1 → idxOperand cs = some n) ∧
    (n < -2 ^ 31 ∨ 2 ^ 31 - 1 < n → idxOperand cs = none)) ∧
  (∀ (line : List Char) (is : List Instr), instrsOfLine line = some is →
    (∀ i ∈ is, i.wf) ∧ assembleLine line = some (is.map encode)) ∧
  (∀ (text : List Char) (ws : List CmdWord), assemble text = some ws →
    ∀ w ∈ ws, ∃ line ∈ splitAtChar '\n' text, ∃ (is : List Instr) (i : Instr),
      instrsOfLine line = some is ∧ i ∈ is ∧ i.wf ∧ encode i = w ∧ decode w = .ok i)

/-- R78, R79: the text of every well-formed instruction, its operands in decimal, assembles to its word, and
so does the text of CLRPIXEL with every index the encoding admits.
(The text's form is one that R78 allows; lexical details: log 18.) -/
def Obligations.TextOfAnInstructionAssembles : Prop :=
  (∀ i : Instr, i.wf → assembleLine (instrText i) = some [encode i]) ∧
  (∀ idx : Int, idxEncodable idx →
    assembleLine (clrPixelText idx) = some [encode (.setpixel idx 0 0 0)])

/-! ### The reference host -/

/-- R172: the source's end-to-end scenario. -/
def Obligations.AnimationScenario : Prop :=
  AnimState.initial = ⟨0, .up, 0⟩ ∧ AnimState.after 1 = ⟨1, .up, 0⟩ ∧
  (∀ palette, AnimState.initial.commands palette =
    [.setpixel (-1) 0 0 0, .setpixel 0 (palette 0).r (palette 0).g (palette 0).b]) ∧
  AnimState.after 7 = ⟨7, .up, 0⟩ ∧
  (∀ palette, (AnimState.after 7).commands palette =
    [.setpixel 6 0 0 0, .setpixel 7 (palette 1).r (palette 1).g (palette 1).b]) ∧
  AnimState.after 8 = ⟨6, .down, 1⟩

/-- R170: the state of the reference host after frame `f`, for every `f ≥ 1`: `step` is the position lit in
the next frame, `0, 1, …, 7, 6, …, 1, 0, …` with period 14; the direction has flipped `(f - 1) / 7` times;
and `colorIndex` counts the flips modulo 8. -/
def Obligations.AnimationStateInClosedForm : Prop :=
  ∀ f : Nat, 1 ≤ f →
    (AnimState.after f).step = (if f % 14 ≤ 7 then f % 14 else 14 - f % 14 : Nat) ∧
    (AnimState.after f).direction = (if (f - 1) / 7 % 2 = 0 then .up else .down) ∧
    (AnimState.after f).colorIndex.val = (f - 1) / 7 % 8

/-- R170: the direction flips in a frame exactly when it starts at an end the direction points out of, which
is at the frames `1 + 7k`, `k ≥ 1`, and the palette index advances there and nowhere else. -/
def Obligations.BouncesOnlyAtTheEnds : Prop :=
  ∀ f : Nat,
    ((AnimState.after f).bounces ↔ ∃ k, 1 ≤ k ∧ f + 1 = 1 + 7 * k) ∧
    ((AnimState.after (f + 1)).direction ≠ (AnimState.after f).direction ↔ (AnimState.after f).bounces) ∧
    (AnimState.after (f + 1)).colorIndex =
      (if (AnimState.after f).bounces then (AnimState.after f).colorIndex + 1
       else (AnimState.after f).colorIndex)

/-- R171, run on the block from reset: for every palette without a black entry and all sample values, the
first `f + 1` frames of the reference host complete with no fault; exactly one pixel is then lit, the one at
the `step` from before the last update; PIX is the picture of the last frame; and TRACE is the events of one
TRANSMIT for each frame, each sending the encoding of its own frame's picture.
(The host as a list of events: log 3, log 4. The host's palette and samples, and a delay as idle steps:
log 17. PIX zero at reset is the spec's decision: log 10.) -/
def Obligations.ReferenceHostLightsOnePixel : Prop :=
  ∀ (palette : Palette) (samples : Nat → Nat) (f : Nat), (∀ c, (palette c).lit) →
    ∃ (n : Nat) (t : State),
      runSteps n
        { State.reset with host := animationScript palette samples (f + 1) } = .next t ∧
      t.host = [] ∧ t.final ∧ (∀ p : Fin 8, t.lit p = true ↔ (p.val : Int) = (AnimState.after f).step) ∧
      (∀ a, t.pixRead a = (AnimState.after f).picture palette a) ∧
      t.trace = (List.range (f + 1)).flatMap fun k =>
        transmitEvents t.cfg (frameByteOf t.cfg ((AnimState.after k).picture palette))

/-! ### Time -/

/-- R250: for any times of a write and of a spin, the time of a whole TRANSMIT's events is the reset phase,
576 slots and the idle write.
(The times are arguments: log 21.) -/
def Obligations.TransmitTimeIsResetSlotsAndIdle : Prop :=
  ∀ (pl : Platform) (cfg : Config) (bytes : SymAddr → Byte),
    pl.traceTime (transmitEvents cfg bytes) =
      pl.resetTime cfg + 576 * pl.slotTime cfg + pl.tWrite
end

