-- ==== Sys2Proof/Laws/Assembler.lean ====
section
/-! SUPPORT. Reading back what is written: numbers in decimal, operands between commas, and a line as its
mnemonic and its operands. -/

namespace Sys2Proof.Machine

/-! ### Numbers -/

theorem digitOf_digitChar : ∀ d < 10, digitOf 10 (digitChar d) = some d := by decide

theorem digitChar_plain : ∀ d < 10, digitChar d ≠ 'x' ∧ digitChar d ≠ 'X' ∧ digitChar d ≠ '-' ∧
    digitChar d ≠ ',' ∧ digitChar d ≠ ';' ∧ isBlank (digitChar d) = false := by decide

theorem exists_digit_of_mem {n v : Nat} : ∀ c ∈ decimalText n v, ∃ d < 10, c = digitChar d := by
  induction n generalizing v with
  | zero => simp [decimalText]
  | succ n ih =>
    unfold decimalText
    split
    · next h => simp only [List.mem_singleton, forall_eq]; exact ⟨v, h, rfl⟩
    · intro c hc
      rcases List.mem_append.mp hc with hc | hc
      · exact ih c hc
      · exact ⟨v % 10, by omega, by simpa using hc⟩

theorem natText_ne_nil (v : Nat) : natText v ≠ [] := by
  unfold natText decimalText
  split <;> simp

theorem digitsFrom_append (acc : Nat) (a b : List Char) :
    digitsFrom 10 acc (a ++ b) = (digitsFrom 10 acc a).bind fun n => digitsFrom 10 n b := by
  induction a generalizing acc with
  | nil => simp [digitsFrom]
  | cons c a ih => simp only [List.cons_append, digitsFrom]; split <;> simp [ih]

theorem digitsFrom_decimalText {n v : Nat} (h : v < 10 ^ n) :
    digitsFrom 10 0 (decimalText n v) = some v := by
  induction n generalizing v with
  | zero => simp at h; subst h; rfl
  | succ n ih =>
    unfold decimalText
    split
    · next h => simp [digitsFrom, digitOf_digitChar v h]
    · rw [digitsFrom_append, ih (by rw [pow_succ] at h; omega)]
      simp [digitsFrom, digitOf_digitChar (v % 10) (by omega)]; omega

theorem digitsOf_natText {v : Nat} (h : v < 10 ^ 10) : digitsOf 10 (natText v) = some v := by
  rw [digitsOf, if_neg (by simpa using natText_ne_nil v), natText, digitsFrom_decimalText h]

/-- A number written in decimal reads as itself. -/
theorem natOf_natText {v : Nat} (h : v < 10 ^ 10) : natOf (natText v) = some v := by
  rw [← digitsOf_natText h]
  have hd : ∀ c ∈ natText v, ∃ d < 10, c = digitChar d := exists_digit_of_mem
  generalize natText v = t at hd
  unfold natOf
  split
  · obtain ⟨d, h, h'⟩ := hd 'x' (by simp)
    exact absurd h'.symm (digitChar_plain d h).1
  · obtain ⟨d, h, h'⟩ := hd 'X' (by simp)
    exact absurd h'.symm (digitChar_plain d h).2.1
  · rfl

/-- An integer written in decimal reads as itself. -/
theorem intOf_intText {v : Int} (h : v.natAbs < 10 ^ 10) : intOf (intText v) = some v := by
  unfold intText
  split
  · rename_i hv
    show (digitsOf 10 (natText v.natAbs)).map (fun n => -(n : Int)) = some v
    rw [digitsOf_natText h]
    show some (-(v.natAbs : Int)) = some v
    congr 1; omega
  · have hd : ∀ c ∈ natText v.natAbs, ∃ d < 10, c = digitChar d := exists_digit_of_mem
    have hn := natOf_natText h
    generalize natText v.natAbs = t at hd hn
    unfold intOf
    split
    · obtain ⟨d, h, h'⟩ := hd '-' (by simp)
      exact absurd h'.symm (digitChar_plain d h).2.2.1
    · rw [hn]; simp; omega

theorem byteOperand_natText (v : Byte) : byteOperand (natText v.toNat) = some v := by
  have := v.isLt
  simp [byteOperand, natOf_natText (v := v.toNat) (by omega)]; omega

theorem idxOperand_intText {v : Int} (h : idxEncodable v) : idxOperand (intText v) = some v := by
  obtain ⟨h1, h2⟩ := h
  simp [idxOperand, intOf_intText (v := v) (by omega), idxEncodable, h1, h2]

/-! ### Texts without blanks, commas and comments -/

/-- A text that is one piece of a line. -/
abbrev Plain (t : List Char) : Prop := t ≠ [] ∧ ∀ c ∈ t, isBlank c = false ∧ c ≠ ',' ∧ c ≠ ';'

theorem plain_natText (v : Nat) : Plain (natText v) := by
  refine ⟨natText_ne_nil v, fun c hc => ?_⟩
  obtain ⟨d, h, rfl⟩ := exists_digit_of_mem c hc
  have := digitChar_plain d h
  tauto

theorem plain_intText (v : Int) : Plain (intText v) := by
  unfold intText
  split
  · refine ⟨by simp, fun c hc => ?_⟩
    rcases List.mem_cons.mp hc with rfl | hc
    · decide
    · exact (plain_natText _).2 c hc
  · exact plain_natText _

theorem plain_setpixel : Plain ['S', 'E', 'T', 'P', 'I', 'X', 'E', 'L'] :=
  ⟨by simp, by simp [isBlank]⟩

theorem plain_clrpixel : Plain ['C', 'L', 'R', 'P', 'I', 'X', 'E', 'L'] :=
  ⟨by simp, by simp [isBlank]⟩

theorem plain_reverse {t : List Char} (h : Plain t) : Plain t.reverse :=
  ⟨by simpa using h.1, fun c hc => h.2 c (by simpa using hc)⟩

theorem dropWhile_plain {t : List Char} (h : Plain t) (u : List Char) :
    (t ++ u).dropWhile isBlank = t ++ u := by
  obtain ⟨h1, h2⟩ := h
  cases t with
  | nil => contradiction
  | cons c t => simp [(h2 c (by simp)).1]

/-- A text that begins and ends with a plain one has nothing to trim. -/
theorem trim_between {a b : List Char} (ha : Plain a) (x : List Char) (hb : Plain b) :
    trim (a ++ x ++ b) = a ++ x ++ b := by
  unfold trim
  rw [List.append_assoc, dropWhile_plain ha, List.reverse_append, List.reverse_append,
    List.append_assoc, dropWhile_plain (plain_reverse hb)]
  simp

theorem trim_plain {t : List Char} (h : Plain t) : trim t = t := by
  unfold trim
  have h1 := dropWhile_plain h []
  rw [List.append_nil] at h1
  have h2 := dropWhile_plain (plain_reverse h) []
  rw [List.append_nil] at h2
  rw [h1, h2, List.reverse_reverse]

theorem trim_space (t : List Char) : trim (' ' :: t) = trim t := by
  unfold trim
  rw [List.dropWhile_cons_of_pos (by decide)]

theorem splitAtChar_comma {t : List Char} (h : Plain t) (u : List Char) :
    splitAtChar ',' (t ++ ',' :: u) = t :: splitAtChar ',' u := by
  replace h := h.2
  induction t with
  | nil => simp [splitAtChar]
  | cons c t ih =>
    simp only [List.cons_append, splitAtChar, if_neg (h c (by simp)).2.1]
    rw [ih fun d hd => h d (by simp [hd])]

theorem splitAtChar_plain {t : List Char} (h : Plain t) : splitAtChar ',' t = [t] := by
  replace h := h.2
  induction t with
  | nil => simp [splitAtChar]
  | cons c t ih =>
    simp only [splitAtChar, if_neg (h c (by simp)).2.1]
    rw [ih fun d hd => h d (by simp [hd])]

theorem splitAtChar_space {t : List Char} {piece : List Char} {pieces : List (List Char)}
    (h : splitAtChar ',' t = piece :: pieces) :
    splitAtChar ',' (' ' :: t) = (' ' :: piece) :: pieces := by
  rw [splitAtChar, if_neg (by decide), h]

/-- Four operands, a comma and a space between them. -/
theorem operandsOf_four {a b c d : List Char} (ha : Plain a) (hb : Plain b) (hc : Plain c)
    (hd : Plain d) :
    operandsOf (a ++ ',' :: ' ' :: (b ++ ',' :: ' ' :: (c ++ ',' :: ' ' :: d))) = [a, b, c, d] := by
  rw [operandsOf, if_neg (by simp), splitAtChar_comma ha, splitAtChar_space (splitAtChar_comma hb _),
    splitAtChar_space (splitAtChar_comma hc _), splitAtChar_space (splitAtChar_plain hd)]
  simp only [List.map, trim_space, trim_plain ha, trim_plain hb, trim_plain hc, trim_plain hd]

theorem operandsOf_one {a : List Char} (ha : Plain a) : operandsOf a = [a] := by
  rw [operandsOf, if_neg (by simpa using ha.1), splitAtChar_plain ha, List.map, trim_plain ha]; rfl

/-- A line that is a mnemonic, a space and operands, with nothing to trim and no comment. -/
theorem instrsOfLine_of_parts {name ops : List Char} {m : Mnemonic} (hm : mnemonicOf name = some m)
    (hp : Plain name) (h1 : ∀ c ∈ ops, c ≠ ';')
    (h2 : trim (name ++ ' ' :: ops) = name ++ ' ' :: ops) (h3 : trim ops = ops) :
    instrsOfLine (name ++ ' ' :: ops) = instrsOf m (operandsOf ops) := by
  have e1 : (name ++ ' ' :: ops).takeWhile (· ≠ ';') = name ++ ' ' :: ops := by
    rw [List.takeWhile_eq_self_iff]
    intro c hc
    simp only [List.mem_append, List.mem_cons] at hc
    rcases hc with hc | rfl | hc
    · simpa using (hp.2 c hc).2.2
    · decide
    · simpa using h1 c hc
  have nb : ∀ c ∈ name, (!isBlank c) = true := fun c hc => by simp [(hp.2 c hc).1]
  have e2 : (name ++ ' ' :: ops).takeWhile (!isBlank ·) = name := by
    rw [List.takeWhile_append_of_pos nb]; simp [isBlank]
  have e3 : (name ++ ' ' :: ops).dropWhile (!isBlank ·) = ' ' :: ops := by
    rw [List.dropWhile_append_of_pos nb]; simp [isBlank]
  simp only [instrsOfLine, stripComment, e1, h2, e2, e3, hm, trim_space, h3]
  rw [if_neg (by simp)]

end Sys2Proof.Machine
end

