-- ==== Sys2Proof/Laws/Decode.lean ====
section
/-! SUPPORT. The fields of a word as arithmetic, the fields of an encoded instruction, and a word as its
fields put together. -/

namespace Sys2Proof

theorem toNat_field (w : CmdWord) (i n : Nat) :
    (w.extractLsb' i n).toNat = w.toNat / 2 ^ i % 2 ^ n := by
  simp [BitVec.extractLsb'_toNat, Nat.shiftRight_eq_div_pow]

theorem opField_iff (w : CmdWord) (n : Byte) : opField w = n ↔ w.toNat / 2 ^ 56 = n.toNat := by
  have := w.isLt
  rw [← BitVec.toNat_inj, opField, toNat_field]
  omega

theorem reservedField_eq_zero_iff (w : CmdWord) : reservedField w = 0 ↔ w.toNat % 2 ^ 56 = 0 := by
  rw [← BitVec.toNat_inj, reservedField, toNat_field]; simp

/-- Sign extension to 64 bits does not change the integer the 32 bits stand for. -/
theorem idxField_eq (w : CmdWord) : idxField w = (w.extractLsb' 0 32).toInt := by
  unfold idxField; rw [BitVec.toInt_signExtend_of_le (by omega)]

/-! ### The fields of an encoded instruction -/

theorem opField_encode (i : Instr) : opField (encode i) = i.op := by
  unfold opField encode; ext j hj
  simp only [BitVec.getElem_extractLsb', BitVec.getLsbD_cast, BitVec.getLsbD_append,
    show ¬ 56 + j < 56 by omega, if_false, Nat.add_sub_cancel_left]
  exact BitVec.getLsbD_eq_getElem hj

theorem reservedField_encode (i : Instr) : reservedField (encode i) = i.operandBits := by
  unfold reservedField encode; ext j hj
  simp only [BitVec.getElem_extractLsb', BitVec.getLsbD_cast, BitVec.getLsbD_append, Nat.zero_add, hj,
    if_true]
  exact BitVec.getLsbD_eq_getElem hj

/-- An index the field can hold comes back from its 32 bits. -/
theorem toInt_idx {idx : Int} (h : idxEncodable idx) : (BitVec.ofInt 32 idx).toInt = idx := by
  rw [BitVec.toInt_ofInt]
  obtain ⟨h1, h2⟩ := h
  rw [Int.bmod_eq_of_le] <;> omega

theorem idxEncodable_idxField (w : CmdWord) : idxEncodable (idxField w) := by
  rw [idxField_eq]
  have h1 := BitVec.le_two_mul_toInt (x := w.extractLsb' 0 32)
  have h2 := BitVec.two_mul_toInt_lt (x := w.extractLsb' 0 32)
  constructor <;> omega

/-! ### A word as its fields -/

theorem word_eq_fields (w : CmdWord) :
    w = (opField w ++ reservedField w : BitVec (8 + 56)).cast rfl := by
  unfold opField reservedField
  apply BitVec.eq_of_getLsbD_eq; intro j hj
  simp only [BitVec.getLsbD_cast, BitVec.getLsbD_append, BitVec.getLsbD_extractLsb', Nat.zero_add]
  split
  · next h => simp [h]
  · next h =>
    simp only [show 56 + (j - 56) = j by omega, show j - 56 < 8 by omega, decide_true, Bool.true_and]

theorem reservedField_eq_operands (w : CmdWord) :
    reservedField w =
      (redField w ++ greenField w ++ blueField w ++ w.extractLsb' 0 32 :
        BitVec (8 + 8 + 8 + 32)).cast rfl := by
  unfold redField greenField blueField reservedField
  apply BitVec.eq_of_getLsbD_eq; intro j hj
  simp only [BitVec.getLsbD_cast, BitVec.getLsbD_append, BitVec.getLsbD_extractLsb', Nat.zero_add, hj,
    decide_true, Bool.true_and]
  split
  · next h => simp [h]
  · split
    · next h => simp only [show 32 + (j - 32) = j by omega, h, decide_true, Bool.true_and]
    · split
      · next h => simp only [show 40 + (j - 32 - 8) = j by omega, h, decide_true, Bool.true_and]
      · next h =>
        simp only [show 48 + (j - 32 - 8 - 8) = j by omega, show j - 32 - 8 - 8 < 8 by omega,
          decide_true, Bool.true_and]

/-! ### What decoding can answer -/

theorem decode_cases (w : CmdWord) :
    (opField w = 0x01 ∧
      decode w = .ok (.setpixel (idxField w) (redField w) (greenField w) (blueField w))) ∨
    (opField w = 0x02 ∧ reservedField w = 0 ∧ decode w = .ok .encode) ∨
    (opField w = 0x03 ∧ reservedField w = 0 ∧ decode w = .ok .transmit) ∨
    (opField w ≠ 0x01 ∧ (opField w = 0x02 ∨ opField w = 0x03 → reservedField w ≠ 0) ∧
      ∃ e, decode w = .error e) := by
  unfold decode decodePlain
  by_cases h1 : opField w = 0x01
  · exact .inl ⟨h1, by rw [if_pos h1]⟩
  · by_cases h2 : opField w = 0x02
    · by_cases hr : reservedField w = 0
      · exact .inr (.inl ⟨h2, hr, by rw [if_neg h1, if_pos h2, if_pos hr]⟩)
      · exact .inr (.inr (.inr ⟨h1, fun _ => hr, _, by rw [if_neg h1, if_pos h2, if_neg hr]⟩))
    · by_cases h3 : opField w = 0x03
      · by_cases hr : reservedField w = 0
        · exact .inr (.inr (.inl ⟨h3, hr, by rw [if_neg h1, if_neg h2, if_pos h3, if_pos hr]⟩))
        · exact .inr (.inr (.inr ⟨h1, fun _ => hr, _, by
            rw [if_neg h1, if_neg h2, if_pos h3, if_neg hr]⟩))
      · exact .inr (.inr (.inr ⟨h1, fun h => (h.elim h2 h3).elim, _, by
          rw [if_neg h1, if_neg h2, if_neg h3]⟩))

end Sys2Proof
end

