-- ==== Sys2Proof/Laws/Memory.lean ====
section
/-! SUPPORT. The laws of a space as a list of cells: read after write, the canonical form, and that a
canonical space is determined by what its addresses read as. -/

namespace Sys2Proof.Machine

theorem Memory.cell?_setCell_self (m : Memory) (a : Nat) (v : Byte) :
    Memory.cell? (Memory.setCell a v m) a = some v := by
  induction m with
  | nil => simp [Memory.setCell, Memory.cell?]
  | cons c rest ih =>
    obtain ⟨k, w⟩ := c
    unfold Memory.setCell
    split
    · simp [Memory.cell?]
    · split
      · simp [Memory.cell?]
      · rw [Memory.cell?, if_neg (by omega), ih]

theorem Memory.cell?_setCell_of_ne (m : Memory) {a b : Nat} (v : Byte) (h : b ≠ a) :
    Memory.cell? (Memory.setCell a v m) b = Memory.cell? m b := by
  induction m with
  | nil => simp [Memory.setCell, Memory.cell?, h.symm]
  | cons c rest ih =>
    obtain ⟨k, w⟩ := c
    unfold Memory.setCell
    split
    · rw [Memory.cell?, if_neg h.symm]
    · split
      · next hk => simp [Memory.cell?, h.symm, ← hk]
      · simp only [Memory.cell?, ih]

theorem Memory.cell?_clearCell_self (m : Memory) (a : Nat) :
    Memory.cell? (Memory.clearCell a m) a = none := by
  induction m with
  | nil => rfl
  | cons c rest ih =>
    obtain ⟨k, w⟩ := c
    unfold Memory.clearCell at ih ⊢
    by_cases hk : k = a
    · simp_all
    · simp_all [Memory.cell?]

theorem Memory.cell?_clearCell_of_ne (m : Memory) {a b : Nat} (h : b ≠ a) :
    Memory.cell? (Memory.clearCell a m) b = Memory.cell? m b := by
  induction m with
  | nil => rfl
  | cons c rest ih =>
    obtain ⟨k, w⟩ := c
    unfold Memory.clearCell at ih ⊢
    by_cases hk : k = a
    · simp_all [Memory.cell?, h.symm]
    · simp_all [Memory.cell?]

/-- Reading the byte just written gives its value. -/
theorem Memory.readByte_writeByte_self (blank : Option Byte) (m : Memory) (a : Nat) (v : Byte) :
    Memory.readByte blank (Memory.writeByte blank a v m) a = some v := by
  unfold Memory.readByte Memory.writeByte
  by_cases h : some v = blank
  · rw [if_pos h, Memory.cell?_clearCell_self, h]
  · rw [if_neg h, Memory.cell?_setCell_self]

/-- Writing a byte leaves every other address as it was. -/
theorem Memory.readByte_writeByte_of_ne (blank : Option Byte) (m : Memory) {a b : Nat} (v : Byte)
    (h : b ≠ a) :
    Memory.readByte blank (Memory.writeByte blank a v m) b = Memory.readByte blank m b := by
  have : Memory.cell? (Memory.writeByte blank a v m) b = Memory.cell? m b := by
    unfold Memory.writeByte
    split
    · exact Memory.cell?_clearCell_of_ne m h
    · exact Memory.cell?_setCell_of_ne m v h
  rw [Memory.readByte, this, Memory.readByte]

/-! ### The canonical form -/

theorem Memory.mem_setCell {m : Memory} {a : Nat} {v : Byte} {c : Host.Cell}
    (h : c ∈ Memory.setCell a v m) : c = (a, v) ∨ c ∈ m := by
  induction m with
  | nil => simpa [Memory.setCell] using h
  | cons d rest ih =>
    obtain ⟨k, w⟩ := d
    unfold Memory.setCell at h
    split at h
    · simpa using h
    · split at h
      · rcases List.mem_cons.mp h with h | h
        · exact .inl h
        · exact .inr (List.mem_cons_of_mem _ h)
      · rcases List.mem_cons.mp h with h | h
        · exact .inr (h ▸ List.mem_cons_self)
        · exact (ih h).imp id (List.mem_cons_of_mem _)

theorem Memory.setCell_sorted {m : Memory} (a : Nat) (v : Byte)
    (h : m.Pairwise fun c d => c.1 < d.1) :
    (Memory.setCell a v m).Pairwise fun c d => c.1 < d.1 := by
  induction m with
  | nil => simp [Memory.setCell]
  | cons d rest ih =>
    obtain ⟨k, w⟩ := d
    rw [List.pairwise_cons] at h
    unfold Memory.setCell
    split
    · next hk =>
      refine List.pairwise_cons.mpr ⟨fun c hc => ?_, List.pairwise_cons.mpr h⟩
      rcases List.mem_cons.mp hc with rfl | hc
      · exact hk
      · exact Nat.lt_trans hk (h.1 c hc)
    · split
      · next hk => exact List.pairwise_cons.mpr ⟨fun c hc => hk ▸ h.1 c hc, h.2⟩
      · refine List.pairwise_cons.mpr ⟨fun c hc => ?_, ih h.2⟩
        rcases Memory.mem_setCell hc with rfl | hc
        · show k < a; omega
        · exact h.1 c hc

/-- A write to an address of the space keeps the canonical form. -/
theorem Memory.wf_writeByte {size : Nat} {blank : Option Byte} {m : Memory} {a : Nat} (v : Byte)
    (h : Memory.wf size blank m) (ha : a < size) :
    Memory.wf size blank (Memory.writeByte blank a v m) := by
  unfold Memory.writeByte
  split
  · exact ⟨h.1.filter _, fun c hc => h.2 c (List.mem_of_mem_filter hc)⟩
  · next hv =>
    refine ⟨Memory.setCell_sorted a v h.1, fun c hc => ?_⟩
    rcases Memory.mem_setCell hc with rfl | hc
    · exact ⟨ha, hv⟩
    · exact h.2 c hc

/-- A space with nothing listed is canonical. -/
theorem Memory.wf_nil (size : Nat) (blank : Option Byte) : Memory.wf size blank [] :=
  ⟨List.Pairwise.nil, fun _ h => absurd h List.not_mem_nil⟩

theorem Memory.cell?_of_mem {m : Memory} {c : Host.Cell} (h : m.Pairwise fun c d => c.1 < d.1)
    (hc : c ∈ m) : Memory.cell? m c.1 = some c.2 := by
  induction m with
  | nil => simp at hc
  | cons d rest ih =>
    rw [List.pairwise_cons] at h
    rcases List.mem_cons.mp hc with rfl | hc
    · simp [Memory.cell?]
    · have := h.1 c hc
      rw [show d = (d.1, d.2) from rfl, Memory.cell?, if_neg (by omega), ih h.2 hc]

theorem Memory.mem_of_cell? {m : Memory} {a : Nat} {v : Byte} (h : Memory.cell? m a = some v) :
    (a, v) ∈ m := by
  induction m with
  | nil => simp [Memory.cell?] at h
  | cons d rest ih =>
    obtain ⟨k, w⟩ := d
    unfold Memory.cell? at h
    split at h
    · next hk => subst hk; cases h; exact List.mem_cons_self
    · exact List.mem_cons_of_mem _ (ih h)

theorem Memory.ext_cell? {m m' : Memory} (h : m.Pairwise fun c d => c.1 < d.1)
    (h' : m'.Pairwise fun c d => c.1 < d.1) (hc : ∀ a, Memory.cell? m a = Memory.cell? m' a) :
    m = m' := by
  refine List.Perm.eq_of_pairwise (le := fun c d : Host.Cell => c.1 < d.1)
    (fun a b _ _ hab hba => absurd hab (by omega)) h h' ?_
  refine (List.perm_ext_iff_of_nodup ?_ ?_).mpr fun c => ?_
  · exact h.imp fun {a b} hab hEq => by simp [hEq] at hab
  · exact h'.imp fun {a b} hab hEq => by simp [hEq] at hab
  · constructor
    · exact fun hm => Memory.mem_of_cell? (hc c.1 ▸ Memory.cell?_of_mem h hm)
    · exact fun hm => Memory.mem_of_cell? (hc c.1 ▸ Memory.cell?_of_mem h' hm)

/-- Two canonical spaces that read alike at every address of theirs are the same data. -/
theorem Memory.ext {size : Nat} {blank : Option Byte} {m m' : Memory} (h : Memory.wf size blank m)
    (h' : Memory.wf size blank m')
    (hr : ∀ a < size, Memory.readByte blank m a = Memory.readByte blank m' a) : m = m' := by
  have key : ∀ {n : Memory}, Memory.wf size blank n → ∀ a, Memory.cell? n a =
      if a < size ∧ Memory.readByte blank n a ≠ blank then Memory.readByte blank n a else none := by
    intro n hn a
    cases hcell : Memory.cell? n a with
    | none => simp [Memory.readByte, hcell]
    | some v =>
      have := hn.2 _ (Memory.mem_of_cell? hcell)
      simp [Memory.readByte, hcell, this.1, this.2]
  refine Memory.ext_cell? h.1 h'.1 fun a => ?_
  rw [key h a, key h' a]
  by_cases ha : a < size
  · rw [hr a ha]
  · simp [ha]

end Sys2Proof.Machine
end

