-- ==== Sys2Proof/Laws/State.lean ====
section
/-! SUPPORT. One lemma per field per update of the state. -/

namespace Sys2Proof.Machine

variable (s : State)

/-! ### `pixWrite` -/

@[simp] theorem State.pixWrite_cfg (a : PixAddr) (v : Byte) : (s.pixWrite a v).cfg = s.cfg := rfl
@[simp] theorem State.pixWrite_pix (a : PixAddr) (v : Byte) :
    (s.pixWrite a v).pix = Memory.writeByte pixBlank a.val v s.pix := rfl
@[simp] theorem State.pixWrite_sym (a : PixAddr) (v : Byte) : (s.pixWrite a v).sym = s.sym := rfl
@[simp] theorem State.pixWrite_symValid (a : PixAddr) (v : Byte) :
    (s.pixWrite a v).symValid = s.symValid := rfl
@[simp] theorem State.pixWrite_tx (a : PixAddr) (v : Byte) : (s.pixWrite a v).tx = s.tx := rfl
@[simp] theorem State.pixWrite_line (a : PixAddr) (v : Byte) : (s.pixWrite a v).line = s.line := rfl
@[simp] theorem State.pixWrite_trace (a : PixAddr) (v : Byte) :
    (s.pixWrite a v).trace = s.trace := rfl
@[simp] theorem State.pixWrite_fault (a : PixAddr) (v : Byte) :
    (s.pixWrite a v).fault = s.fault := rfl
@[simp] theorem State.pixWrite_host (a : PixAddr) (v : Byte) : (s.pixWrite a v).host = s.host := rfl

/-! ### `symWrite` -/

@[simp] theorem State.symWrite_cfg (a : SymAddr) (v : Byte) : (s.symWrite a v).cfg = s.cfg := rfl
@[simp] theorem State.symWrite_pix (a : SymAddr) (v : Byte) : (s.symWrite a v).pix = s.pix := rfl
@[simp] theorem State.symWrite_sym (a : SymAddr) (v : Byte) :
    (s.symWrite a v).sym = Memory.writeByte symBlank a.val v s.sym := rfl
@[simp] theorem State.symWrite_symValid (a : SymAddr) (v : Byte) :
    (s.symWrite a v).symValid = s.symValid := rfl
@[simp] theorem State.symWrite_tx (a : SymAddr) (v : Byte) : (s.symWrite a v).tx = s.tx := rfl
@[simp] theorem State.symWrite_line (a : SymAddr) (v : Byte) : (s.symWrite a v).line = s.line := rfl
@[simp] theorem State.symWrite_trace (a : SymAddr) (v : Byte) :
    (s.symWrite a v).trace = s.trace := rfl
@[simp] theorem State.symWrite_fault (a : SymAddr) (v : Byte) :
    (s.symWrite a v).fault = s.fault := rfl
@[simp] theorem State.symWrite_host (a : SymAddr) (v : Byte) : (s.symWrite a v).host = s.host := rfl

/-! ### `setSym` -/

@[simp] theorem State.setSym_cfg (m : Memory) : (s.setSym m).cfg = s.cfg := rfl
@[simp] theorem State.setSym_pix (m : Memory) : (s.setSym m).pix = s.pix := rfl
@[simp] theorem State.setSym_sym (m : Memory) : (s.setSym m).sym = m := rfl
@[simp] theorem State.setSym_symValid (m : Memory) : (s.setSym m).symValid = s.symValid := rfl
@[simp] theorem State.setSym_tx (m : Memory) : (s.setSym m).tx = s.tx := rfl
@[simp] theorem State.setSym_line (m : Memory) : (s.setSym m).line = s.line := rfl
@[simp] theorem State.setSym_trace (m : Memory) : (s.setSym m).trace = s.trace := rfl
@[simp] theorem State.setSym_fault (m : Memory) : (s.setSym m).fault = s.fault := rfl
@[simp] theorem State.setSym_host (m : Memory) : (s.setSym m).host = s.host := rfl

/-! ### `markSymValid` -/

@[simp] theorem State.markSymValid_cfg : s.markSymValid.cfg = s.cfg := rfl
@[simp] theorem State.markSymValid_pix : s.markSymValid.pix = s.pix := rfl
@[simp] theorem State.markSymValid_sym : s.markSymValid.sym = s.sym := rfl
@[simp] theorem State.markSymValid_symValid : s.markSymValid.symValid = true := rfl
@[simp] theorem State.markSymValid_tx : s.markSymValid.tx = s.tx := rfl
@[simp] theorem State.markSymValid_line : s.markSymValid.line = s.line := rfl
@[simp] theorem State.markSymValid_trace : s.markSymValid.trace = s.trace := rfl
@[simp] theorem State.markSymValid_fault : s.markSymValid.fault = s.fault := rfl
@[simp] theorem State.markSymValid_host : s.markSymValid.host = s.host := rfl

/-! ### `portWrite` -/

@[simp] theorem State.portWrite_cfg (v : Byte) : (s.portWrite v).cfg = s.cfg := rfl
@[simp] theorem State.portWrite_pix (v : Byte) : (s.portWrite v).pix = s.pix := rfl
@[simp] theorem State.portWrite_sym (v : Byte) : (s.portWrite v).sym = s.sym := rfl
@[simp] theorem State.portWrite_symValid (v : Byte) : (s.portWrite v).symValid = s.symValid := rfl
@[simp] theorem State.portWrite_tx (v : Byte) : (s.portWrite v).tx = s.tx := rfl
@[simp] theorem State.portWrite_line (v : Byte) : (s.portWrite v).line = .driven v := rfl
@[simp] theorem State.portWrite_trace (v : Byte) :
    (s.portWrite v).trace = s.trace ++ [.write v] := rfl
@[simp] theorem State.portWrite_fault (v : Byte) : (s.portWrite v).fault = s.fault := rfl
@[simp] theorem State.portWrite_host (v : Byte) : (s.portWrite v).host = s.host := rfl

/-! ### `spinEvent` -/

@[simp] theorem State.spinEvent_cfg : s.spinEvent.cfg = s.cfg := rfl
@[simp] theorem State.spinEvent_pix : s.spinEvent.pix = s.pix := rfl
@[simp] theorem State.spinEvent_sym : s.spinEvent.sym = s.sym := rfl
@[simp] theorem State.spinEvent_symValid : s.spinEvent.symValid = s.symValid := rfl
@[simp] theorem State.spinEvent_tx : s.spinEvent.tx = s.tx := rfl
@[simp] theorem State.spinEvent_line : s.spinEvent.line = s.line := rfl
@[simp] theorem State.spinEvent_trace : s.spinEvent.trace = s.trace ++ [.spin] := rfl
@[simp] theorem State.spinEvent_fault : s.spinEvent.fault = s.fault := rfl
@[simp] theorem State.spinEvent_host : s.spinEvent.host = s.host := rfl

/-! ### `setTx` -/

@[simp] theorem State.setTx_cfg (tx : Tx) : (s.setTx tx).cfg = s.cfg := rfl
@[simp] theorem State.setTx_pix (tx : Tx) : (s.setTx tx).pix = s.pix := rfl
@[simp] theorem State.setTx_sym (tx : Tx) : (s.setTx tx).sym = s.sym := rfl
@[simp] theorem State.setTx_symValid (tx : Tx) : (s.setTx tx).symValid = s.symValid := rfl
@[simp] theorem State.setTx_tx (tx : Tx) : (s.setTx tx).tx = tx := rfl
@[simp] theorem State.setTx_line (tx : Tx) : (s.setTx tx).line = s.line := rfl
@[simp] theorem State.setTx_trace (tx : Tx) : (s.setTx tx).trace = s.trace := rfl
@[simp] theorem State.setTx_fault (tx : Tx) : (s.setTx tx).fault = s.fault := rfl
@[simp] theorem State.setTx_host (tx : Tx) : (s.setTx tx).host = s.host := rfl

/-! ### `setHost` -/

@[simp] theorem State.setHost_cfg (es : List HostEvent) : (s.setHost es).cfg = s.cfg := rfl
@[simp] theorem State.setHost_pix (es : List HostEvent) : (s.setHost es).pix = s.pix := rfl
@[simp] theorem State.setHost_sym (es : List HostEvent) : (s.setHost es).sym = s.sym := rfl
@[simp] theorem State.setHost_symValid (es : List HostEvent) :
    (s.setHost es).symValid = s.symValid := rfl
@[simp] theorem State.setHost_tx (es : List HostEvent) : (s.setHost es).tx = s.tx := rfl
@[simp] theorem State.setHost_line (es : List HostEvent) : (s.setHost es).line = s.line := rfl
@[simp] theorem State.setHost_trace (es : List HostEvent) : (s.setHost es).trace = s.trace := rfl
@[simp] theorem State.setHost_fault (es : List HostEvent) : (s.setHost es).fault = s.fault := rfl
@[simp] theorem State.setHost_host (es : List HostEvent) : (s.setHost es).host = es := rfl

/-! ### `raiseFault` -/

@[simp] theorem State.raiseFault_cfg (k : FaultKind) (w : CmdWord) :
    (s.raiseFault k w).cfg = s.cfg := rfl
@[simp] theorem State.raiseFault_pix (k : FaultKind) (w : CmdWord) :
    (s.raiseFault k w).pix = s.pix := rfl
@[simp] theorem State.raiseFault_sym (k : FaultKind) (w : CmdWord) :
    (s.raiseFault k w).sym = s.sym := rfl
@[simp] theorem State.raiseFault_symValid (k : FaultKind) (w : CmdWord) :
    (s.raiseFault k w).symValid = s.symValid := rfl
@[simp] theorem State.raiseFault_tx (k : FaultKind) (w : CmdWord) :
    (s.raiseFault k w).tx = s.tx := rfl
@[simp] theorem State.raiseFault_line (k : FaultKind) (w : CmdWord) :
    (s.raiseFault k w).line = s.line := rfl
@[simp] theorem State.raiseFault_trace (k : FaultKind) (w : CmdWord) :
    (s.raiseFault k w).trace = s.trace := rfl
@[simp] theorem State.raiseFault_fault (k : FaultKind) (w : CmdWord) :
    (s.raiseFault k w).fault = ⟨k, w⟩ := rfl
@[simp] theorem State.raiseFault_host (k : FaultKind) (w : CmdWord) :
    (s.raiseFault k w).host = s.host := rfl

/-! ### `applyReset` -/

@[simp] theorem State.applyReset_cfg : s.applyReset.cfg = s.cfg := rfl
@[simp] theorem State.applyReset_pix : s.applyReset.pix = [] := rfl
@[simp] theorem State.applyReset_sym : s.applyReset.sym = [] := rfl
@[simp] theorem State.applyReset_symValid : s.applyReset.symValid = false := rfl
@[simp] theorem State.applyReset_tx : s.applyReset.tx = ⟨.ready, 0, 0⟩ := rfl
@[simp] theorem State.applyReset_line : s.applyReset.line = .undriven := rfl
@[simp] theorem State.applyReset_trace : s.applyReset.trace = [] := rfl
@[simp] theorem State.applyReset_fault : s.applyReset.fault = ⟨.none, 0⟩ := rfl
@[simp] theorem State.applyReset_host : s.applyReset.host = s.host := rfl

/-! ### Updates that meet -/

@[simp] theorem State.setHost_setHost (es es' : List HostEvent) :
    (s.setHost es).setHost es' = s.setHost es' := rfl

@[simp] theorem State.setHost_self : s.setHost s.host = s := rfl

@[simp] theorem State.setTx_setTx (tx tx' : Tx) : (s.setTx tx).setTx tx' = s.setTx tx' := rfl

@[simp] theorem State.setTx_self : s.setTx s.tx = s := rfl

/-! ### The derived conditions -/

theorem State.busy_iff : s.busy = true ↔ s.tx.phase ≠ .ready := by simp [State.busy]

theorem State.not_busy_iff : s.busy = false ↔ s.tx.phase = .ready := by simp [State.busy]

theorem State.stopped_iff : s.stopped = true ↔ s.fault.kind ≠ .none := by simp [State.stopped]

theorem State.not_stopped_iff : s.stopped = false ↔ s.fault.kind = .none := by simp [State.stopped]

@[simp] theorem State.setHost_busy (es : List HostEvent) : (s.setHost es).busy = s.busy := rfl

@[simp] theorem State.setHost_stopped (es : List HostEvent) : (s.setHost es).stopped = s.stopped := rfl

@[simp] theorem State.applyReset_busy : s.applyReset.busy = false := rfl

@[simp] theorem State.applyReset_stopped : s.applyReset.stopped = false := rfl

end Sys2Proof.Machine
end

