-- ==== Sys2Proof/Laws/Ops.lean ====
section
/-! SUPPORT. What the shared operations do: the bytes of PIX and SYM after a write, the pixel an index
names, and the three ways a command can be taken. -/

namespace Sys2Proof.Machine

/-! ### Single bytes -/

theorem State.pixRead_pixWrite_self (s : State) (a : PixAddr) (v : Byte) :
    (s.pixWrite a v).pixRead a = v := by
  simp [State.pixRead, Memory.readByte_writeByte_self]

theorem State.pixRead_pixWrite_of_ne (s : State) {a b : PixAddr} (v : Byte) (h : b ≠ a) :
    (s.pixWrite a v).pixRead b = s.pixRead b := by
  simp [State.pixRead, Memory.readByte_writeByte_of_ne _ _ v (Fin.val_ne_of_ne h)]

theorem State.symRead_symWrite_self (s : State) (a : SymAddr) (v : Byte) :
    (s.symWrite a v).symRead a = some v := by
  simp [State.symRead, Memory.readByte_writeByte_self]

theorem State.symRead_symWrite_of_ne (s : State) {a b : SymAddr} (v : Byte) (h : b ≠ a) :
    (s.symWrite a v).symRead b = s.symRead b := by
  simp [State.symRead, Memory.readByte_writeByte_of_ne _ _ v (Fin.val_ne_of_ne h)]

/-- What PIX reads as depends on PIX alone. -/
theorem State.pixRead_congr {s t : State} (h : t.pix = s.pix) (a : PixAddr) :
    t.pixRead a = s.pixRead a := by simp [State.pixRead, h]

/-- What SYM reads as depends on SYM alone. -/
theorem State.symRead_congr {s t : State} (h : t.sym = s.sym) (a : SymAddr) :
    t.symRead a = s.symRead a := by simp [State.symRead, h]

/-- A canonical PIX always has a value, and two of them that read alike are the same data. -/
theorem State.pix_ext {s t : State} (h : Memory.wf 24 pixBlank s.pix)
    (h' : Memory.wf 24 pixBlank t.pix) (hr : ∀ a, t.pixRead a = s.pixRead a) : t.pix = s.pix := by
  refine Memory.ext h' h fun a ha => ?_
  have := hr ⟨a, ha⟩
  simp only [State.pixRead, Memory.readByte, pixBlank] at this ⊢
  split <;> split <;> simp_all

/-- Two canonical SYMs that read alike are the same data. -/
theorem State.sym_ext {s t : State} (h : Memory.wf 576 symBlank s.sym)
    (h' : Memory.wf 576 symBlank t.sym) (hr : ∀ a, t.symRead a = s.symRead a) : t.sym = s.sym :=
  Memory.ext h' h fun a ha => hr ⟨a, ha⟩

/-! ### Pixels -/

theorem pixelOf_eq_some_iff {idx : Int} {p : Fin 8} : pixelOf idx = some p ↔ idx = p.val := by
  unfold pixelOf
  split
  · simp only [Option.some.injEq, Fin.ext_iff]; omega
  · simp only [false_iff, reduceCtorEq]; have := p.isLt; omega

theorem pixelOf_eq_none_iff {idx : Int} : pixelOf idx = none ↔ ¬(0 ≤ idx ∧ idx < 8) := by
  unfold pixelOf; split <;> simp_all

@[simp] theorem pixAddr_val (p : Fin 8) (c : Fin 3) : (pixAddr p c).val = 3 * p.val + c.val := rfl

@[simp] theorem bitNumber_val (p : Fin 8) (c : Fin 3) (k : Fin 8) :
    (bitNumber p c k).val = 24 * p.val + 8 * c.val + k.val := rfl

@[simp] theorem slotAddr_val (m : Fin 192) (j : Fin 3) : (slotAddr m j).val = 3 * m.val + j.val := rfl

theorem pixAddr_inj {p q : Fin 8} {c d : Fin 3} : pixAddr p c = pixAddr q d ↔ p = q ∧ c = d := by
  simp only [pixAddr, Fin.ext_iff]; omega

/-- Every byte of PIX is one channel of one pixel. -/
theorem exists_pixAddr (a : PixAddr) : ∃ p c, a = pixAddr p c :=
  ⟨⟨a.val / 3, by omega⟩, ⟨a.val % 3, by omega⟩, by simp only [pixAddr, Fin.ext_iff]; omega⟩

/-- A pixel write gives the pixel its colour and leaves every other pixel alone. -/
theorem State.pixRead_writePixel (s : State) (p q : Fin 8) (c : Fin 3) (r g b : Byte) :
    (s.writePixel p r g b).pixRead (pixAddr q c) =
      if q = p then (if c = 0 then g else if c = 1 then r else b) else s.pixRead (pixAddr q c) := by
  have reads : ∀ (s : State) (d : Fin 3) (v : Byte),
      (s.pixWrite (pixAddr p d) v).pixRead (pixAddr q c) =
        if q = p ∧ c = d then v else s.pixRead (pixAddr q c) := by
    intro s d v
    split
    · next h => rw [pixAddr_inj.mpr h]; exact s.pixRead_pixWrite_self _ v
    · next h => exact s.pixRead_pixWrite_of_ne v (mt pixAddr_inj.mp h)
  unfold State.writePixel
  rw [reads, reads, reads]
  by_cases hq : q = p
  · have : c = 0 ∨ c = 1 ∨ c = 2 := by omega
    rcases this with rfl | rfl | rfl <;> simp [hq]
  · simp [hq]

/-- A pixel write changes PIX and nothing else. -/
theorem State.writePixel_eq (s : State) (p : Fin 8) (r g b : Byte) :
    s.writePixel p r g b = { s with pix := (s.writePixel p r g b).pix } := rfl

theorem State.writePixel_wf {s : State} (p : Fin 8) (r g b : Byte)
    (h : Memory.wf 24 pixBlank s.pix) : Memory.wf 24 pixBlank (s.writePixel p r g b).pix := by
  unfold State.writePixel
  exact Memory.wf_writeByte _ (Memory.wf_writeByte _ (Memory.wf_writeByte _ h (pixAddr p 0).isLt)
    (pixAddr p 1).isLt) (pixAddr p 2).isLt

/-! ### Accepting a command -/

section accept

variable {i : Instr} {s t : State} {effect : State → Outcome}

theorem accept_of_stopped (h : s.stopped = true) : accept i s effect = .fault .stopped := by
  simp [accept, h]

theorem accept_of_busy (h : s.stopped = false) (hb : s.busy = true) :
    accept i s effect = .next (s.raiseFault .busy (encode i)) := by simp [accept, h, hb]

theorem accept_of_ready (h : s.stopped = false) (hb : s.busy = false) :
    accept i s effect = effect s := by simp [accept, h, hb]

/-- Everything an accepted command can do when it answers a next state. -/
theorem accept_cases (h : accept i s effect = .next t) :
    s.stopped = false ∧
      ((s.busy = true ∧ t = s.raiseFault .busy (encode i)) ∨
        (s.busy = false ∧ effect s = .next t)) := by
  unfold accept at h
  split at h
  · cases h
  · next hs =>
    refine ⟨by simpa using hs, ?_⟩
    split at h
    · next hb => cases h; exact .inl ⟨hb, rfl⟩
    · next hb => exact .inr ⟨by simpa using hb, h⟩

end accept

end Sys2Proof.Machine
end

