-- ==== Sys2Proof/Laws/FrameEncoder.lean ====
section
/-! SUPPORT. The cells an ENCODE leaves in SYM: where each stands, what it holds, and that together they
are a space in canonical form. -/

namespace Sys2Proof.Machine

theorem Memory.cell?_append (m n : Memory) (a : Nat) :
    Memory.cell? (m ++ n : Memory) a = (Memory.cell? m a).or (Memory.cell? n a) := by
  induction m with
  | nil => simp [Memory.cell?]
  | cons c m ih =>
    obtain ⟨k, v⟩ := c
    simp only [List.cons_append, Memory.cell?]
    split <;> simp [ih]

theorem Memory.cell?_flatMap_none {n : Nat} (f : Fin n → Memory) {a : Nat}
    (h : ∀ k, Memory.cell? (f k) a = none) :
    Memory.cell? ((List.finRange n).flatMap f) a = none := by
  generalize List.finRange n = l
  induction l with
  | nil => rfl
  | cons j l ih => rw [List.flatMap_cons, Memory.cell?_append, h, ih]; rfl

/-- In a row of blocks, an address that only block `k` may list reads as block `k` says. -/
theorem Memory.cell?_flatMap_of_only {n : Nat} (f : Fin n → Memory) (k : Fin n) {a : Nat}
    (h : ∀ j, j ≠ k → Memory.cell? (f j) a = none) :
    Memory.cell? ((List.finRange n).flatMap f) a = Memory.cell? (f k) a := by
  have gen : ∀ l : List (Fin n),
      Memory.cell? (l.flatMap f) a = if k ∈ l then Memory.cell? (f k) a else none := by
    intro l
    induction l with
    | nil => simp [Memory.cell?]
    | cons j l ih =>
      rw [List.flatMap_cons, Memory.cell?_append, ih]
      by_cases hj : j = k
      · subst hj; by_cases hl : j ∈ l <;> simp [hl]
      · simp [h j hj, Ne.symm hj]
  rw [gen, if_pos (List.mem_finRange k)]

/-- The three cells of a protocol bit's symbol. -/
theorem cell?_symbolCells (cfg : Config) (m : Fin 192) (bit : Bool) (a : Nat) :
    Memory.cell? (symbolCells cfg m bit) a =
      if a / 3 = m.val then some (if a % 3 = 1 then level cfg bit else cfg.codeIdle) else none := by
  have h0 : ((0 : Fin 3) : Nat) = 0 := rfl
  have h1 : ((1 : Fin 3) : Nat) = 1 := rfl
  have h2 : ((2 : Fin 3) : Nat) = 2 := rfl
  simp only [symbolCells, Memory.cell?, slotAddr_val, h0, h1, h2]
  split_ifs <;> first | rfl | omega

/-- The twenty-four cells of a channel value. -/
theorem cell?_channelCells (cfg : Config) (p : Fin 8) (c : Fin 3) (v : Byte) (a : Nat) :
    Memory.cell? (channelCells cfg p c v) a =
      if a / 24 = 3 * p.val + c.val then
        some (if a % 3 = 1 then level cfg (v.getLsbD (7 - a % 24 / 3)) else cfg.codeIdle)
      else none := by
  unfold channelCells
  split
  · next h =>
    rw [Memory.cell?_flatMap_of_only _ ⟨a % 24 / 3, by omega⟩, cell?_symbolCells, if_pos]
    · rfl
    · simp only [bitNumber_val]; omega
    · intro k hk
      rw [cell?_symbolCells, if_neg]
      simp only [bitNumber_val]
      exact fun h' => hk (Fin.ext (by simp only; omega))
  · next h =>
    refine Memory.cell?_flatMap_none _ fun k => ?_
    rw [cell?_symbolCells, if_neg]
    simp only [bitNumber_val]; omega

/-- The seventy-two cells of a pixel. -/
theorem cell?_pixelCells (s : State) (p : Fin 8) (a : Nat) :
    Memory.cell? (s.pixelCells p) a =
      if a / 72 = p.val then
        some (if a % 3 = 1 then
          level s.cfg ((s.pixRead (pixAddr p ⟨a % 72 / 24, by omega⟩)).getLsbD (7 - a % 24 / 3))
        else s.cfg.codeIdle)
      else none := by
  unfold State.pixelCells
  split
  · next h =>
    rw [Memory.cell?_flatMap_of_only _ ⟨a % 72 / 24, by omega⟩, cell?_channelCells, if_pos]
    · simp only; omega
    · intro c hc
      rw [cell?_channelCells, if_neg]
      exact fun h' => hc (Fin.ext (by simp only; omega))
  · next h =>
    refine Memory.cell?_flatMap_none _ fun c => ?_
    rw [cell?_channelCells, if_neg]
    omega

/-- Every cell of the frame: the closed form of R113. -/
theorem cell?_frameCells (s : State) (a : SymAddr) :
    Memory.cell? s.frameCells a.val = some (s.frameByte a) := by
  unfold State.frameCells
  rw [Memory.cell?_flatMap_of_only _ ⟨a.val / 72, by omega⟩, cell?_pixelCells, if_pos rfl]
  · rfl
  · intro p hp
    rw [cell?_pixelCells, if_neg]
    exact fun h' => hp (Fin.ext (by simp only; omega))

@[simp] theorem symRead_encodeFrame (s : State) (a : SymAddr) :
    s.encodeFrame.symRead a = some (s.frameByte a) := by
  simp only [State.symRead, Memory.readByte, State.encodeFrame, State.setSym_sym, cell?_frameCells]

/-! ### The canonical form -/

/-- Blocks that each lie in their own stretch of `width` addresses, in order, make one sorted space. -/
theorem Memory.sorted_flatMap {n : Nat} (f : Fin n → Memory) (base width : Nat)
    (hs : ∀ k, (f k).Pairwise fun c d => c.1 < d.1)
    (hb : ∀ k, ∀ c ∈ f k, base + width * k.val ≤ c.1 ∧ c.1 < base + width * (k.val + 1)) :
    ((List.finRange n).flatMap f).Pairwise fun c d => c.1 < d.1 := by
  rw [List.pairwise_flatMap]
  refine ⟨fun k _ => hs k, (List.pairwise_lt_finRange n).imp fun {j k} hjk c hc d hd => ?_⟩
  have h1 := (hb j c hc).2
  have h2 := (hb k d hd).1
  have h3 : width * (j.val + 1) ≤ width * k.val := Nat.mul_le_mul_left _ hjk
  omega

theorem bounds_symbolCells (cfg : Config) (m : Fin 192) (bit : Bool) :
    ∀ c ∈ symbolCells cfg m bit, 3 * m.val ≤ c.1 ∧ c.1 < 3 * m.val + 3 := by
  intro c hc
  simp only [symbolCells, slotAddr_val, List.mem_cons, List.not_mem_nil, or_false] at hc
  rcases hc with rfl | rfl | rfl <;> simp

theorem sorted_symbolCells (cfg : Config) (m : Fin 192) (bit : Bool) :
    (symbolCells cfg m bit).Pairwise fun c d => c.1 < d.1 := by
  simp [symbolCells]

theorem bounds_channelCells (cfg : Config) (p : Fin 8) (c : Fin 3) (v : Byte) :
    ∀ x ∈ channelCells cfg p c v,
      72 * p.val + 24 * c.val ≤ x.1 ∧ x.1 < 72 * p.val + 24 * (c.val + 1) := by
  intro x hx
  obtain ⟨k, _, hk⟩ := List.mem_flatMap.mp hx
  have := bounds_symbolCells _ _ _ x hk
  simp only [bitNumber_val] at this
  omega

theorem sorted_channelCells (cfg : Config) (p : Fin 8) (c : Fin 3) (v : Byte) :
    (channelCells cfg p c v).Pairwise fun x y => x.1 < y.1 := by
  refine Memory.sorted_flatMap _ (72 * p.val + 24 * c.val) 3
    (fun k => sorted_symbolCells _ _ _) fun k x hx => ?_
  have := bounds_symbolCells _ _ _ x hx
  simp only [bitNumber_val] at this
  omega

theorem bounds_pixelCells (s : State) (p : Fin 8) :
    ∀ x ∈ s.pixelCells p, 72 * p.val ≤ x.1 ∧ x.1 < 72 * (p.val + 1) := by
  intro x hx
  obtain ⟨_, _, hc⟩ := List.mem_flatMap.mp hx
  have := bounds_channelCells _ _ _ _ x hc
  omega

theorem sorted_pixelCells (s : State) (p : Fin 8) :
    (s.pixelCells p).Pairwise fun x y => x.1 < y.1 :=
  Memory.sorted_flatMap _ (72 * p.val) 24 (fun _ => sorted_channelCells _ _ _ _)
    fun _ x hx => bounds_channelCells _ _ _ _ x hx

/-- What ENCODE leaves in SYM is canonical. -/
theorem frameCells_wf (s : State) : Memory.wf 576 symBlank s.frameCells := by
  refine ⟨Memory.sorted_flatMap _ 0 72 (fun p => sorted_pixelCells s p) fun p x hx => ?_,
    fun x hx => ⟨?_, by simp [symBlank]⟩⟩
  · have := bounds_pixelCells s p x hx; omega
  · obtain ⟨p, _, hp⟩ := List.mem_flatMap.mp hx
    have := bounds_pixelCells s p x hp
    omega

end Sys2Proof.Machine
end

