-- ==== Sys2Proof/Laws/PerInstr.lean ====
section
/-! SUPPORT. Statements about every instruction, one lemma per constructor. -/

namespace Sys2Proof.Laws

/-- `OpcodeByte`: the top byte of an instruction's word is its `op`, and no two instructions of
different `op` have one word (R71, R73). -/
def OpcodeByte.Statement (i : Instr) : Prop :=
  (encode i).toNat / 2 ^ 56 = i.op.toNat ∧ ∀ j, encode i = encode j → i.op = j.op

theorem OpcodeByte.of (i : Instr) : OpcodeByte.Statement i :=
  ⟨(opField_iff _ _).mp (opField_encode i), fun j h => by rw [← opField_encode i, h, opField_encode j]⟩

theorem OpcodeByte.setpixel (idx : Int) (r g b : Byte) : OpcodeByte.Statement (.setpixel idx r g b) :=
  OpcodeByte.of _

theorem OpcodeByte.encode : OpcodeByte.Statement .encode := OpcodeByte.of _

theorem OpcodeByte.transmit : OpcodeByte.Statement .transmit := OpcodeByte.of _

end Sys2Proof.Laws
end

