-- ==== Sys2Proof/Laws/Run.lean ====
section
/-! SUPPORT. Runs of several steps, put together from shorter ones. -/

namespace Sys2Proof.Machine

/-- `runSteps` is the run of the host's interface. -/
theorem runSteps_eq_core_run (n : Nat) (s : State) :
    runSteps n s = Host.Core.run Sys2Proof.core n s := by
  induction n generalizing s with
  | zero => rfl
  | succ n ih =>
    refine Eq.trans ?_ (Host.Core.run.eq_2 Sys2Proof.core s n).symm
    rw [runSteps, show Sys2Proof.core.step s = step s from rfl]
    cases step s with
    | next t => exact ih t
    | fault r => rfl
    | refused r => rfl

/-- A run that begins with a step to `t` is the rest of it from `t`. -/
theorem runSteps_of_step {n : Nat} {s t : State} (h : step s = .next t) :
    runSteps (n + 1) s = runSteps n t := by rw [runSteps, h]

/-- A run that ends in a next state begins with a step to one. -/
theorem exists_step_of_runSteps {n : Nat} {s u : State} (h : runSteps (n + 1) s = .next u) :
    ∃ t, step s = .next t ∧ runSteps n t = .next u := by
  rw [runSteps] at h
  cases hs : step s with
  | next t => rw [hs] at h; exact ⟨t, rfl, h⟩
  | fault r => rw [hs] at h; cases h
  | refused r => rw [hs] at h; cases h

/-- A run goes on from where a shorter run ended. -/
theorem runSteps_add {m : Nat} (n : Nat) {s t : State} (h : runSteps m s = .next t) :
    runSteps (m + n) s = runSteps n t := by
  induction m generalizing s with
  | zero => rw [runSteps] at h; cases h; rw [Nat.zero_add]
  | succ m ih =>
    obtain ⟨s', hs, h⟩ := exists_step_of_runSteps h
    rw [Nat.succ_add, runSteps_of_step hs, ih h]

end Sys2Proof.Machine
end

