-- ==== Sys2Proof/Laws/Step.lean ====
section
/-! SUPPORT. Everything a command, a micro-step and a step can do when they answer a next state. -/

namespace Sys2Proof.Machine

variable {s t : State}

theorem execSetpixel_cases {idx : Int} {r g b : Byte} (h : execSetpixel idx r g b s = .next t) :
    s.stopped = false ∧
      ((s.busy = true ∧ t = s.raiseFault .busy (encode (.setpixel idx r g b))) ∨
        (s.busy = false ∧ pixelOf idx = none ∧ t = s) ∨
        (s.busy = false ∧ ∃ p, pixelOf idx = some p ∧ t = s.writePixel p r g b)) := by
  obtain ⟨hs, ⟨hb, rfl⟩ | ⟨hb, he⟩⟩ := accept_cases h
  · exact ⟨hs, .inl ⟨hb, rfl⟩⟩
  · refine ⟨hs, .inr ?_⟩
    cases hp : pixelOf idx with
    | none => simp only [hp] at he; cases he; exact .inl ⟨hb, rfl, rfl⟩
    | some p => simp only [hp] at he; cases he; exact .inr ⟨hb, p, rfl, rfl⟩

theorem execEncode_cases (h : execEncode s = .next t) :
    s.stopped = false ∧
      ((s.busy = true ∧ t = s.raiseFault .busy (encode .encode)) ∨
        (s.busy = false ∧ t = s.encodeFrame.markSymValid)) := by
  obtain ⟨hs, ⟨hb, rfl⟩ | ⟨hb, he⟩⟩ := accept_cases h
  · exact ⟨hs, .inl ⟨hb, rfl⟩⟩
  · cases he; exact ⟨hs, .inr ⟨hb, rfl⟩⟩

theorem execTransmit_cases (h : execTransmit s = .next t) :
    s.stopped = false ∧
      ((s.busy = true ∧ t = s.raiseFault .busy (encode .transmit)) ∨
        (s.busy = false ∧ s.symValid = false ∧ t = s.raiseFault .notEncoded (encode .transmit)) ∨
        (s.busy = false ∧ s.symValid = true ∧
          t = (s.portWrite s.cfg.codeIdle).setTx ⟨.reset, 0, s.cfg.resetSpin⟩)) := by
  obtain ⟨hs, ⟨hb, rfl⟩ | ⟨hb, he⟩⟩ := accept_cases h
  · exact ⟨hs, .inl ⟨hb, rfl⟩⟩
  · refine ⟨hs, .inr ?_⟩
    split at he
    · next hv => cases he; exact .inr ⟨hb, hv, rfl⟩
    · next hv => cases he; exact .inl ⟨hb, by simpa using hv, rfl⟩

/-- Everything a micro-step can do. -/
theorem microStep_cases (h : microStep s = .next t) :
    (s.tx.phase = .ready ∧ t = s) ∨
    (s.tx.phase ≠ .ready ∧ 0 < s.tx.spin ∧ t = s.holdStep) ∨
    (s.tx.phase = .reset ∧ s.tx.spin = 0 ∧ t = s.endResetStep) ∨
    (s.tx.phase = .stream ∧ s.tx.spin = 0 ∧ ∃ (hi : s.tx.idx.val < 576) (b : Byte),
      s.symRead ⟨s.tx.idx.val, hi⟩ = some b ∧
      t = (s.portWrite b).setTx
        { s.tx with idx := ⟨s.tx.idx.val + 1, by omega⟩, spin := s.cfg.slotSpin }) ∨
    (s.tx.phase = .stream ∧ s.tx.spin = 0 ∧ s.tx.idx.val = 576 ∧ t = s.idleWriteStep) := by
  unfold microStep at h
  split at h
  · next hp => cases h; exact .inl ⟨hp, rfl⟩
  · next hp =>
    split at h <;> cases h
    · next hs => exact .inr (.inl ⟨by simp [hp], hs, rfl⟩)
    · next hs => exact .inr (.inr (.inl ⟨hp, by omega, rfl⟩))
  · next hp =>
    split at h
    · next hs => cases h; exact .inr (.inl ⟨by simp [hp], hs, rfl⟩)
    · next hs =>
      split at h
      · next hi =>
        unfold State.symbolByteStep at h
        split at h
        · next b hb => cases h; exact .inr (.inr (.inr (.inl ⟨hp, by omega, hi, b, hb, rfl⟩)))
        · cases h
      · next hi =>
        cases h
        exact .inr (.inr (.inr (.inr ⟨hp, by omega, by have := s.tx.idx.isLt; omega, rfl⟩)))

/-- Everything the arrival of a command word can do. -/
theorem issue_cases {w : CmdWord} (h : issue w s = .next t) :
    (∃ i, decode w = .ok i ∧ exec i s = .next t) ∨
    (∃ e, decode w = .error e ∧ t = s.raiseFault .illegalCommand w) := by
  unfold issue at h
  split at h
  · next i hi => exact .inl ⟨i, hi, h⟩
  · next e he => cases h; exact .inr ⟨e, he, rfl⟩

/-- Everything a step can do. -/
theorem step_cases (h : step s = .next t) :
    (s.stopped = true ∧ ∃ rest, afterReset? s.host = some rest ∧ t = (s.setHost rest).applyReset) ∨
    (s.stopped = false ∧ s.host = [] ∧ microStep s = .next t) ∨
    (s.stopped = false ∧ ∃ e rest, s.host = e :: rest ∧
      ((e.blocking = true ∧ s.busy = true ∧ microStep s = .next t) ∨
        ((e.blocking = false ∨ s.busy = false) ∧ act e.action (s.setHost rest) = .next t))) := by
  unfold step turn at h
  split at h
  · next hs =>
    refine .inl ⟨hs, ?_⟩
    unfold stoppedTurn at h
    split at h
    · next rest hr => cases h; exact ⟨rest, hr, rfl⟩
    · cases h
  · next hs =>
    have hs : s.stopped = false := by simpa using hs
    split at h
    · next hh => exact .inr (.inl ⟨hs, hh, h⟩)
    · next e rest hh =>
      refine .inr (.inr ⟨hs, e, rest, hh, ?_⟩)
      split at h
      · next hc => rw [Bool.and_eq_true] at hc; exact .inl ⟨hc.1, hc.2, h⟩
      · next hc => exact .inr ⟨by simpa [← Bool.not_eq_true, imp_iff_not_or] using hc, h⟩

/-! ### The parts a micro-step leaves alone -/

theorem microStep_frame (h : microStep s = .next t) :
    t = { s with tx := t.tx, line := t.line, trace := t.trace } := by
  rcases microStep_cases h with
    ⟨_, rfl⟩ | ⟨_, _, rfl⟩ | ⟨_, _, rfl⟩ | ⟨_, _, _, _, _, rfl⟩ | ⟨_, _, _, rfl⟩ <;> rfl

theorem microStep_cfg (h : microStep s = .next t) : t.cfg = s.cfg := by rw [microStep_frame h]

theorem microStep_pix (h : microStep s = .next t) : t.pix = s.pix := by rw [microStep_frame h]

theorem microStep_sym (h : microStep s = .next t) : t.sym = s.sym := by rw [microStep_frame h]

theorem microStep_symValid (h : microStep s = .next t) : t.symValid = s.symValid := by
  rw [microStep_frame h]

theorem microStep_fault (h : microStep s = .next t) : t.fault = s.fault := by rw [microStep_frame h]

theorem microStep_host (h : microStep s = .next t) : t.host = s.host := by rw [microStep_frame h]

/-! ### The host's next reset -/

theorem afterReset?_eq_none {l : List HostEvent} (h : ∀ e ∈ l, e.action ≠ .reset) :
    afterReset? l = none := by
  induction l with
  | nil => rfl
  | cons e l ih =>
    simp only [afterReset?, if_neg (h e (by simp))]
    exact ih fun e he => h e (by simp [he])

theorem afterReset?_append {l : List HostEvent} {e : HostEvent} (rest : List HostEvent)
    (h : ∀ d ∈ l, d.action ≠ .reset) (he : e.action = .reset) :
    afterReset? (l ++ e :: rest) = some rest := by
  induction l with
  | nil => simp [afterReset?, he]
  | cons d l ih =>
    simp only [List.cons_append, afterReset?, if_neg (h d (by simp))]
    exact ih fun e he => h e (by simp [he])

theorem exists_reset_of_afterReset? {l rest : List HostEvent} (h : afterReset? l = some rest) :
    ∃ e ∈ l, e.action = .reset := by
  by_contra hc
  rw [afterReset?_eq_none fun e he ha => hc ⟨e, he, ha⟩] at h
  cases h

/-! ### The step of a block that is not stopped -/

/-- The step in which a command word arrives at once. -/
theorem step_withCommand (s : State) (w : CmdWord) (hs : s.stopped = false) :
    step (s.withCommand w) = issue w s := by
  unfold step turn
  rw [if_neg (by rw [show (s.withCommand w).stopped = s.stopped from rfl, hs]; decide)]
  rfl

/-- The step of a busy block whose host waits. -/
theorem step_of_waiting (hs : s.stopped = false) (hh : ∀ e ∈ s.host.head?, e.blocking = true)
    (hb : s.busy = true) : step s = microStep s := by
  unfold step turn
  cases h : s.host with
  | nil => simp [hs]
  | cons e rest => simp [hs, hb, hh e (by simp [h])]

end Sys2Proof.Machine
end

