-- ==== Sys2Proof/Tests/Slice0.lean ====
section
/-! SUPPORT. Tests: the checks of WellFormed, words of the spec decoded, single steps with the results of
spec/95_test_vectors.md, and for every statement with hypotheses concrete values that meet them all. -/

open Sys2Proof Sys2Proof.Machine

namespace Sys2Proof.Tests

/-! ### States -/

/-- Three different codes, SLOT_SPIN 1 and RESET_SPIN 2 (vector TX-1). -/
def cfg : Config := ⟨0x10, 0x20, 0x30, 1, 2, by decide⟩

/-- A block right after reset. -/
def fresh : State := { State.reset with cfg := cfg }

/-- Pixel 5 painted as in vector ENC-9. -/
def painted : State := { fresh with pix := [(15, 0xF0), (16, 0x0F), (17, 0x3C)] }

/-- The same, after an ENCODE. -/
def encoded : State := painted.encodeFrame.markSymValid

/-- In the reset hold, `spin` spins left. -/
def inReset (spin : Nat) : State :=
  { encoded with
    tx := ⟨.reset, 0, spin⟩, line := .driven 0x10, trace := [.write 0x10] }

/-- In the bit stream, `spin` spins left, before symbol byte `idx`. -/
def inStream (idx : Fin 577) (spin : Nat) : State :=
  { encoded with
    tx := ⟨.stream, idx, spin⟩, line := .driven 0x10, trace := [.write 0x10] }

/-- A block that a fault has stopped. -/
def stuck : State := { encoded with fault := ⟨.illegalCommand, 0x0400000000000000⟩ }

/-- A block that a BUSY fault has stopped in the middle of a TRANSMIT. -/
def stuckBusy : State := { inStream 3 1 with fault := ⟨.busy, encode .encode⟩ }

/-- The state a step answers, if it is a next state. -/
def nextOf : Outcome → Option State
  | .next t => some t
  | .fault _ => none
  | .refused _ => none

/-! ### WellFormed -/

theorem test_wf_index_above_refused : (Instr.setpixel 2147483648 0 0 0).wellFormed = false := by decide
theorem test_wf_index_below_refused : (Instr.setpixel (-2147483649) 0 0 0).wellFormed = false := by decide
theorem test_wf_index_bounds :
    (Instr.setpixel 2147483647 1 2 3).wellFormed = true ∧
    (Instr.setpixel (-2147483648) 1 2 3).wellFormed = true ∧
    Instr.encode.wellFormed = true ∧ Instr.transmit.wellFormed = true := by decide
theorem test_wf_check_is_wf (i : Instr) : i.wellFormed = true ↔ i.wf := by
  cases i <;> simp [Instr.wellFormed, Instr.wf]

/-- R31: an ill-formed configuration is refused, equal codes too. -/
theorem test_cfg_refused : Config.make? 0x00 0x20 0x20 1 2 = none := by decide

/-! ### Decoding, words written out from the spec (95, section 2.1) -/

theorem test_dec_1 : decode 0x0100000000000000 = .ok (.setpixel 0 0 0 0) := by decide
theorem test_dec_2 : decode 0x01000000FFFFFFFF = .ok (.setpixel (-1) 0 0 0) := by decide
theorem test_dec_3 : decode 0x0100000080000000 = .ok (.setpixel (-2147483648) 0 0 0) := by decide
theorem test_dec_4 : decode 0x010000007FFFFFFF = .ok (.setpixel 2147483647 0 0 0) := by decide
theorem test_dec_5 : decode 0x01FFFFFFFFFFFFFF = .ok (.setpixel (-1) 0xFF 0xFF 0xFF) := by decide
theorem test_dec_6 : decode 0x0112345600000003 = .ok (.setpixel 3 0x12 0x34 0x56) := by decide
theorem test_dec_7 : decode 0x0200000000000000 = .ok .encode := by decide
theorem test_dec_8 : decode 0x0300000000000000 = .ok .transmit := by decide
theorem test_dec_9 : decode 0x0200000000000001 = .error (.reservedBits 0x02) := by decide
theorem test_dec_10 : decode 0x0380000000000000 = .error (.reservedBits 0x03) := by decide
theorem test_dec_11 : decode 0x0000000000000000 = .error (.unassignedOp 0x00) := by decide
theorem test_dec_12 : decode 0x0400000000000000 = .error (.unassignedOp 0x04) := by decide
theorem test_dec_13 : decode 0xFF00000000000000 = .error (.unassignedOp 0xFF) := by decide

/-- R80, and vector SP-8's word. -/
theorem test_encode_words :
    encode (.setpixel 0 0xFF 0 0) = 0x01FF000000000000 ∧
    encode (.setpixel 0 1 1 1) = 0x0101010100000000 ∧
    encode (.setpixel (-1) 0 0 0) = 0x01000000FFFFFFFF ∧
    encode .transmit = 0x0300000000000000 := by decide

theorem test_table_words :
    decodeTableWord 64 0x0112345600000003 = some (.setpixel 3 0x12 0x34 0x56) ∧
    decodeTableWord 64 0x0200000000000001 = none ∧
    decodeTableWord 72 0x0200000000000000 = none := by decide

/-! ### SETPIXEL (95, section 2.2) -/

theorem test_setpixel_sp1 :
    (nextOf (exec (.setpixel 0 0x11 0x22 0x33) fresh)).map (·.pix) =
      some [(0, 0x22), (1, 0x11), (2, 0x33)] := by decide

/-- SP-8: a SETPIXEL during a TRANSMIT. -/
theorem test_setpixel_sp8 :
    (nextOf (step ((inReset 1).withCommand 0x0101010100000000))).map (fun t => (t.fault, t.pix)) =
      some (⟨.busy, 0x0101010100000000⟩, painted.pix) := by decide

/-! ### ENCODE (95, section 2.3) -/

set_option maxRecDepth 20000 in
/-- ENC-9, the first and the last level of each colour. -/
theorem test_encode_enc9 :
    (nextOf (exec .encode painted)).map (fun t =>
      ([361, 370, 373, 382, 385, 394, 397, 406, 409, 412, 415, 424, 427, 430].map t.symRead)) =
      some ([0x30, 0x30, 0x20, 0x20, 0x20, 0x20, 0x30, 0x30, 0x20, 0x20, 0x30, 0x30, 0x20, 0x20].map
        some) := by decide

set_option maxRecDepth 20000 in
/-- ENC-4: pixel 3 red, value 1. -/
theorem test_encode_enc4 :
    (nextOf (exec .encode { fresh with pix := [(10, 0x01)] })).map (fun t =>
      ((t.sym.filter fun c => c.2 = 0x30), t.sym.length, t.symValid)) =
      some ([(262, 0x30)], 576, true) := by decide

/-! ### TRANSMIT (95, section 2.4) -/

/-- TX-3. -/
theorem test_transmit_tx3 :
    (nextOf (exec .transmit fresh)).map (fun t => (t.fault, t.trace, t.line)) =
      some (⟨.notEncoded, 0x0300000000000000⟩, [], .undriven) := by decide

/-- TX-5, step 1, with RESET_SPIN = 2. -/
theorem test_transmit_tx5_issue :
    (nextOf (exec .transmit encoded)).map (fun t => (t.tx, t.trace, t.line)) =
      some (⟨.reset, 0, 2⟩, [.write 0x10], .driven 0x10) := by decide

/-- TX-5, steps 2 and 5: a hold. -/
theorem test_hold :
    (nextOf (step (inReset 1))).map (fun t => (t.tx, t.trace)) =
      some (⟨.reset, 0, 0⟩, [.write 0x10, .spin]) := by decide

/-- TX-5, step 3. -/
theorem test_end_of_reset :
    (nextOf (step (inReset 0))).map (fun t => (t.tx, t.trace)) =
      some (⟨.stream, 0, 0⟩, [.write 0x10]) := by decide

set_option maxRecDepth 20000 in
/-- TX-5, step 6, at `SYM[373]`, which ENC-9 says is CODE_LOW. -/
theorem test_symbol_byte :
    (nextOf (step (inStream 373 0))).map (fun t => (t.tx, t.trace, t.line)) =
      some (⟨.stream, 374, 1⟩, [.write 0x10, .write 0x20], .driven 0x20) := by decide

/-- TX-5, step 1156. -/
theorem test_idle_write :
    (nextOf (step (inStream 576 0))).map (fun t => (t.tx, t.trace)) =
      some (⟨.ready, 0, 0⟩, [.write 0x10, .write 0x10]) := by decide

/-- TX-7: illegality comes before busy. -/
theorem test_illegal_while_busy :
    (nextOf (step ((inStream 3 1).withCommand 0x0300000000000001))).map (·.fault) =
      some ⟨.illegalCommand, 0x0300000000000001⟩ := by decide

/-- P4: the command after a fault is never accepted. -/
theorem test_stopped : step (stuck.withCommand 0x0300000000000000) = .fault .stopped := rfl

/-- The very next step after reset runs the word that is placed. -/
theorem test_first_step_after_reset :
    step (State.reset.withFetchWord 64 0x0300000000000000) =
      .next { State.reset with fault := ⟨.notEncoded, 0x0300000000000000⟩ } := rfl

/-! ### Witnesses: reset, configuration, encoding -/

/-- In the middle of a TRANSMIT, a reset that does not wait. -/
theorem witness_ResetGivesTheResetTable_busy :
    ({ inStream 3 1 with host := [.resetNow, .pass] } : State).host = .resetNow :: [.pass] ∧
    HostEvent.resetNow.action = .reset ∧ HostEvent.resetNow.blocking = false := ⟨rfl, rfl, rfl⟩

/-- At READY, a reset between calls. -/
theorem witness_ResetGivesTheResetTable_ready :
    ({ encoded with host := [⟨.reset, true⟩] } : State).host = ⟨.reset, true⟩ :: [] ∧
    ({ encoded with host := [⟨.reset, true⟩] } : State).busy = false := ⟨rfl, rfl⟩

/-- Stopped while busy, a reset that would have waited. -/
theorem witness_ResetGivesTheResetTable_stopped :
    ({ stuckBusy with host := [⟨.reset, true⟩] } : State).host = ⟨.reset, true⟩ :: [] ∧
    ({ stuckBusy with host := [⟨.reset, true⟩] } : State).stopped = true := ⟨rfl, rfl⟩

theorem witness_IdleBlockKeepsItsState :
    encoded.accepts ∧ encoded.host = [] ∧
    ({ encoded with host := [.delay] } : State).accepts ∧
    ({ encoded with host := [.delay] } : State).host = ⟨.idle, true⟩ :: [] :=
  ⟨⟨rfl, rfl⟩, rfl, ⟨rfl, rfl⟩, rfl⟩

/-- Equal codes, and codes one apart. -/
theorem witness_ConfigurationNeedsLowBelowHigh :
    (0x20 : Byte).toNat ≤ (0x20 : Byte).toNat ∧ (0x20 : Byte).toNat < (0x21 : Byte).toNat := by decide

/-- One word for each clause; for the first, the indices next to the sign change. -/
theorem witness_DecodeReadsTheFields :
    (0x01000000FFFFFFFF : CmdWord).toNat / 2 ^ 56 = 1 ∧
    (0x010000007FFFFFFF : CmdWord).toNat % 2 ^ 32 < 2 ^ 31 ∧
    ¬ (0x0100000080000000 : CmdWord).toNat % 2 ^ 32 < 2 ^ 31 ∧
    (0x0200000000000000 : CmdWord).toNat = 2 * 2 ^ 56 ∧
    (0x0300000000000000 : CmdWord).toNat = 3 * 2 ^ 56 ∧
    ((0x0200000000000001 : CmdWord).toNat / 2 ^ 56 ≠ 1 ∧
      (0x0200000000000001 : CmdWord).toNat ≠ 2 * 2 ^ 56 ∧
      (0x0200000000000001 : CmdWord).toNat ≠ 3 * 2 ^ 56) := by decide

theorem witness_DecodeAfterEncode :
    (Instr.setpixel 2147483647 0xFF 0 1).wf ∧ (Instr.setpixel (-2147483648) 0 0xFF 0x80).wf ∧
    Instr.encode.wf ∧ Instr.transmit.wf := by decide

theorem witness_EncodeAfterDecode :
    decode 0x01FFFFFFFFFFFFFF = .ok (.setpixel (-1) 0xFF 0xFF 0xFF) ∧
    decode 0x0300000000000000 = .ok .transmit := by decide

/-! ### Witnesses: the step and the faults -/

theorem witness_NoStepChangesTheConfiguration :
    step (inReset 0) = .next (inStream 0 0) := rfl

/-- A blocking call at READY, and an immediate one while busy. -/
theorem witness_StepRunsTheIssuedCommand :
    (encoded.stopped = false ∧ (HostEvent.call 0x0300000000000000).action = .issue 0x0300000000000000 ∧
      encoded.busy = false ∧ decode 0x0300000000000000 = .ok .transmit) ∧
    ((inReset 1).stopped = false ∧ (HostEvent.preempt 0x0200000000000000).blocking = false ∧
      decode 0x0200000000000000 = .ok .encode) := by decide

theorem witness_BlockingCallsWaitForTheTransmitter :
    ({ inReset 1 with host := [.call 0x0200000000000000] } : State).hostWaits ∧
    ({ inReset 1 with host := [.call 0x0200000000000000] } : State).busy = true ∧
    ({ inReset 1 with host := [.pass, .delay] } : State).stopped = false ∧
    ({ inReset 1 with host := [.pass, .delay] } : State).host = .pass :: [.delay] :=
  ⟨⟨rfl, by simp⟩, rfl, rfl, rfl⟩

theorem witness_FaultPriorityOfAnArrivingWord :
    fresh.stopped = false ∧ encoded.stopped = false ∧ (inStream 3 1).stopped = false := ⟨rfl, rfl, rfl⟩

/-- Each of the three faults. -/
theorem witness_FaultingCommandChangesOnlyFault :
    (step (encoded.withCommand 0x0400000000000000) =
        .next { encoded with fault := ⟨.illegalCommand, 0x0400000000000000⟩ } ∧
      step (fresh.withCommand 0x0300000000000000) =
        .next { fresh with fault := ⟨.notEncoded, 0x0300000000000000⟩ } ∧
      step ((inReset 1).withCommand 0x0200000000000000) =
        .next { inReset 1 with fault := ⟨.busy, 0x0200000000000000⟩ }) ∧
    fresh.stopped = false ∧
    ({ fresh with fault := ⟨.notEncoded, 0x0300000000000000⟩ } : State).stopped = true :=
  ⟨⟨rfl, rfl, rfl⟩, rfl, rfl⟩

theorem witness_BusyBlockTurnsEveryCommandAway :
    (inReset 1).stopped = false ∧ (inReset 1).busy = true ∧
    decode 0x0200000000000000 = .ok .encode := by decide

/-- A stopped block without a reset to come, and one with. -/
theorem witness_StoppedBlockTakesOnlyAReset :
    stuck.fault.kind ≠ .none ∧ (∀ e ∈ ([.call 0x0300000000000000] : List HostEvent), e.action ≠ .reset) ∧
    ({ stuckBusy with host := [.pass, .resetNow, .delay] } : State).host =
      [.pass] ++ HostEvent.resetNow :: [.delay] ∧
    (∀ d ∈ ([.pass] : List HostEvent), d.action ≠ .reset) ∧ HostEvent.resetNow.action = .reset := by
  decide

/-- A fault that a reset clears, one that a word records, and a step that records none. -/
theorem witness_OnlyAResetClearsAFault :
    (nextOf (step { stuck with host := [.resetNow] })).map (·.fault) = some ⟨.none, 0⟩ ∧
    stuck.fault.kind ≠ .none ∧
    (nextOf (step (encoded.withCommand 0))).map (·.fault) = some ⟨.illegalCommand, 0⟩ ∧
    (nextOf (step (inReset 1))).map (·.fault.kind) = some .none ∧
    encoded.fault.kind = .none ∧ (inReset 1).fault.kind = .none := by decide

/-! ### Witnesses: SETPIXEL -/

/-- Each clause: busy; out of range next to the range; the first and the last pixel. -/
theorem witness_SetpixelWritesOnePixel :
    ((inReset 1).stopped = false ∧ (inReset 1).busy = true) ∧
    (fresh.stopped = false ∧ fresh.busy = false ∧ ((-1 : Int) < 0 ∨ 8 ≤ (-1 : Int)) ∧
      ((8 : Int) < 0 ∨ 8 ≤ (8 : Int)) ∧ (0 : Int) = (0 : Fin 8).val ∧ (7 : Int) = (7 : Fin 8).val) := by
  decide

/-- The indices next to the range and at the ends of the field. -/
theorem witness_SetpixelOutOfRangeChangesNothing :
    encoded.accepts ∧ ((-1 : Int) < 0 ∨ 8 ≤ (-1 : Int)) ∧ ((8 : Int) < 0 ∨ 8 ≤ (8 : Int)) ∧
    ((-2147483648 : Int) < 0 ∨ 8 ≤ (-2147483648 : Int)) ∧
    ((2147483647 : Int) < 0 ∨ 8 ≤ (2147483647 : Int)) := by decide

/-- SP-6. -/
theorem witness_LaterSetpixelReplacesTheEarlier :
    Memory.wf 24 pixBlank fresh.pix ∧ fresh.accepts ∧
    exec (.setpixel 4 1 2 3) fresh = .next { fresh with pix := [(12, 2), (13, 1), (14, 3)] } ∧
    exec (.setpixel 4 9 8 7) { fresh with pix := [(12, 2), (13, 1), (14, 3)] } =
      .next { fresh with pix := [(12, 8), (13, 9), (14, 7)] } :=
  ⟨by decide, ⟨rfl, rfl⟩, rfl, rfl⟩

/-- In range, out of range, and busy. -/
theorem witness_SetpixelFrame :
    (nextOf (exec (.setpixel 4 1 2 3) fresh)).isSome = true ∧ fresh.busy = false ∧
    exec (.setpixel 8 1 2 3) fresh = .next fresh ∧
    (nextOf (exec (.setpixel 4 1 2 3) (inReset 1))).isSome = true ∧ (inReset 1).busy = true :=
  ⟨rfl, rfl, rfl, rfl, rfl⟩

theorem witness_OnlySetpixelWritesPix :
    fresh.stopped = false ∧
    (nextOf (step (fresh.withCommand 0x0101020300000000))).map (·.pix) = some [(0, 2), (1, 1), (2, 3)] ∧
    fresh.pix = [] := by decide

/-! ### Witnesses: ENCODE -/

theorem painted_encode : exec .encode painted = .next encoded := rfl

theorem encoded_symRead (a : SymAddr) : encoded.symRead a = some (painted.frameByte a) :=
  symRead_encodeFrame painted a

theorem encoded_sym_wf : Memory.wf 576 symBlank encoded.sym := frameCells_wf painted

/-- At READY and in the middle of a TRANSMIT. -/
theorem witness_EncodeIsTheLoopOfTheRule :
    encoded.stopped = false ∧ encoded.busy = false ∧ Memory.wf 576 symBlank encoded.sym ∧
    (inReset 1).stopped = false ∧ (inReset 1).busy = true ∧ Memory.wf 576 symBlank (inReset 1).sym :=
  ⟨rfl, rfl, encoded_sym_wf, rfl, rfl, encoded_sym_wf⟩

/-- The last byte of SYM. -/
theorem witness_EncodeFollowsTheIndexFormula :
    painted.accepts ∧ (575 : SymAddr).val = 72 * (7 : Fin 8).val + 24 * (2 : Fin 3).val +
      3 * (7 : Fin 8).val + (2 : Fin 3).val := ⟨⟨rfl, rfl⟩, rfl⟩

/-- Two blocks with one PIX that differ in SYM, SYM_VALID and TRACE. -/
theorem witness_EncodeDependsOnPixAndCodesOnly :
    painted.accepts ∧ ({ encoded with trace := [.spin] } : State).accepts ∧
    (∀ a, painted.pixRead a = ({ encoded with trace := [.spin] } : State).pixRead a) ∧
    painted.symValid ≠ encoded.symValid ∧ exec .encode painted = .next encoded ∧
    exec .encode { encoded with trace := [.spin] } = .next { encoded with trace := [.spin] } :=
  ⟨⟨rfl, rfl⟩, ⟨rfl, rfl⟩, fun _ => rfl, by decide, rfl, rfl⟩

theorem witness_EncodeTwiceIsEncodeOnce :
    painted.accepts ∧ exec .encode painted = .next encoded := ⟨⟨rfl, rfl⟩, rfl⟩

/-- Both premises at the last byte of PIX. -/
theorem witness_SaturatedChannelsAreUniform :
    ({ fresh with pix := [(23, 0xFF)] } : State).accepts ∧
    (nextOf (exec .encode { fresh with pix := [(23, 0xFF)] })).isSome = true ∧
    ({ fresh with pix := [(23, 0xFF)] } : State).pixRead (pixAddr 7 2) = 0xFF ∧
    ({ fresh with pix := [(23, 0xFF)] } : State).pixRead (pixAddr 7 1) = 0x00 :=
  ⟨⟨rfl, rfl⟩, rfl, by decide, by decide⟩

theorem witness_CodeCountsAfterEncode :
    painted.accepts ∧ exec .encode painted = .next encoded := ⟨⟨rfl, rfl⟩, rfl⟩

theorem witness_EncodeFrame :
    exec .encode painted = .next encoded ∧ painted.busy = false ∧
    exec .encode (inReset 1) = .next { inReset 1 with fault := ⟨.busy, encode .encode⟩ } ∧
    (inReset 1).busy = true := ⟨rfl, rfl, rfl, rfl⟩

theorem witness_OnlyEncodeWritesSym :
    painted.stopped = false ∧ step (painted.withCommand 0x0200000000000000) = .next encoded ∧
    encoded.symValid ≠ painted.symValid := ⟨rfl, rfl, by decide⟩

/-! ### Witnesses: TRANSMIT -/

/-- One state for each clause. -/
theorem witness_TransmitStartsTheResetPhase :
    ((inReset 1).stopped = false ∧ (inReset 1).busy = true) ∧
    (fresh.stopped = false ∧ fresh.busy = false ∧ fresh.symValid = false) ∧
    (encoded.stopped = false ∧ encoded.busy = false ∧ encoded.symValid = true) := by
  refine ⟨⟨rfl, rfl⟩, ⟨rfl, rfl, rfl⟩, rfl, rfl, rfl⟩

theorem witness_TransmitFrame :
    exec .transmit encoded = .next (inReset 2) ∧
    exec .transmit fresh = .next { fresh with fault := ⟨.notEncoded, 0x0300000000000000⟩ } := ⟨rfl, rfl⟩

/-- With no event to come the host waits. -/
theorem hostWaits_of_nil {s : State} (hs : s.stopped = false) (hh : s.host = []) : s.hostWaits :=
  ⟨hs, by simp [hh]⟩

/-- A hold of each kind, with one spin left. -/
theorem witness_HoldSpinsOnce :
    ((inReset 1).hostWaits ∧ (inReset 1).tx.phase ≠ .ready ∧ 0 < (inReset 1).tx.spin) ∧
    ((inStream 576 1).hostWaits ∧ (inStream 576 1).tx.phase ≠ .ready ∧ 0 < (inStream 576 1).tx.spin) :=
  ⟨⟨hostWaits_of_nil rfl rfl, by decide, by decide⟩, ⟨hostWaits_of_nil rfl rfl, by decide, by decide⟩⟩

theorem witness_ResetHoldEndsSilently :
    (inReset 0).hostWaits ∧ (inReset 0).tx.phase = .reset ∧ (inReset 0).tx.spin = 0 :=
  ⟨hostWaits_of_nil rfl rfl, rfl, rfl⟩

/-- The first and the last symbol byte. -/
theorem witness_SymbolByteGoesOut :
    ((inStream 0 0).hostWaits ∧ (inStream 0 0).tx = ⟨.stream, (0 : SymAddr).castSucc, 0⟩ ∧
      (1 : Fin 577).val = (0 : SymAddr).val + 1 ∧ (inStream 0 0).symRead 0 = some 0x10) ∧
    ((inStream 575 0).hostWaits ∧ (inStream 575 0).tx = ⟨.stream, (575 : SymAddr).castSucc, 0⟩ ∧
      (576 : Fin 577).val = (575 : SymAddr).val + 1 ∧ (inStream 575 0).symRead 575 = some 0x10) :=
  ⟨⟨hostWaits_of_nil rfl rfl, rfl, rfl, encoded_symRead 0⟩,
    hostWaits_of_nil rfl rfl, rfl, rfl, encoded_symRead 575⟩

theorem witness_IdleWriteCompletesTheTransmit :
    (inStream 576 0).hostWaits ∧ (inStream 576 0).tx = ⟨.stream, 576, 0⟩ :=
  ⟨hostWaits_of_nil rfl rfl, rfl⟩

/-- Each guard, where it meets the next: the last spin, the last symbol byte, the index 576, READY; and a
SYM with no value. -/
theorem witness_ExactlyOneMicroStepIsEnabled :
    ((inReset 1).tx.phase ≠ .ready ∧ encoded.tx.phase = .ready ∧
      ∀ m : MicroStep, m ∈ [.hold, .endReset, .symbolByte, .idleWrite] → m.guard encoded.tx = false) ∧
    MicroStep.hold.guard (inReset 1).tx = true ∧ MicroStep.hold.guard (inStream 576 1).tx = true ∧
    MicroStep.endReset.guard (inReset 0).tx = true ∧
    MicroStep.symbolByte.guard (inStream 575 0).tx = true ∧
    MicroStep.idleWrite.guard (inStream 576 0).tx = true ∧
    ({ inStream 575 0 with sym := [] } : State).symRead 575 = none := by decide

/-- A host that then waits, and the first and the last step in which the block is busy. -/
theorem witness_TransmitSendsTheWholeBuffer :
    encoded.accepts ∧ encoded.symValid = true ∧
    (∀ a, encoded.symRead a = some (painted.frameByte a)) ∧
    (∀ e ∈ ([.call 0x0200000000000000] : List HostEvent).head?, e.blocking = true) ∧
    transmitSteps encoded.cfg = 1157 ∧ 0 < 1156 ∧ 1156 < transmitSteps encoded.cfg :=
  ⟨⟨rfl, rfl⟩, rfl, encoded_symRead, by simp, rfl, by decide, by decide⟩

theorem witness_SymbolBytesStandAtTheirSlots : 0 < cfg.slotSpin := by decide

theorem witness_StaleBufferIsSent :
    painted.accepts ∧ (Instr.setpixel 2 0 0 0x80).wf ∧ (Instr.setpixel (-1) 0xFF 0 0).wf := by decide

theorem witness_SecondTransmitRepeatsTheFirst :
    encoded.accepts ∧ encoded.symValid = true ∧
    (∀ a, encoded.symRead a = some (painted.frameByte a)) :=
  ⟨⟨rfl, rfl⟩, rfl, encoded_symRead⟩

/-- A write, a spin, and a step without an event. -/
theorem witness_OnlyTransmitWritesThePort :
    (inReset 1).stopped = false ∧ (∀ e ∈ (inReset 1).host.head?, e.action ≠ .reset) ∧
    (nextOf (step (inReset 1))).map (·.trace) = some [.write 0x10, .spin] ∧
    (nextOf (step (inStream 576 0))).map (·.trace) = some [.write 0x10, .write 0x10] ∧
    (nextOf (step (inReset 0))).map (·.trace) = some [.write 0x10] := by
  refine ⟨rfl, fun e he => ?_, by decide, by decide, by decide⟩
  rw [show (inReset 1).host = [] from rfl] at he
  cases he

/-! ### Witnesses: the invariant -/

theorem painted_frameByte_fits (a : SymAddr) : fitsSlot cfg a.val (painted.frameByte a) := by
  simp only [fitsSlot, State.frameByte, frameByteOf, level]
  split
  · split
    · exact .inr rfl
    · exact .inl rfl
  · rfl

theorem encoded_symOk : encoded.symOk :=
  fun a => ⟨painted.frameByte a, encoded_symRead a, painted_frameByte_fits a⟩

theorem encoded_spacesOk : encoded.spacesOk := ⟨by decide, encoded_sym_wf⟩

theorem portOk_of_one {s : State} (h1 : s.line = .driven 0x10) (h2 : s.trace = [.write 0x10])
    (h3 : s.cfg = cfg) : s.portOk := by
  refine ⟨by rw [h1, h2]; rfl, fun e he b hb => ?_⟩
  rw [h2, List.mem_singleton] at he
  rw [he] at hb; cases hb
  rw [h3]; exact .inl rfl

/-- The invariant at READY, in the reset hold, in the stream, stopped by each fault; and a step from
each of the first three. -/
theorem inv_encoded : encoded.Inv :=
  ⟨encoded_spacesOk, encoded_symOk, ⟨rfl, rfl⟩, ⟨rfl, by simp [encoded, painted, fresh, State.reset,
    State.encodeFrame, State.setSym, State.markSymValid]⟩, rfl⟩

theorem inv_inReset : (inReset 2).Inv :=
  ⟨encoded_spacesOk, encoded_symOk, ⟨rfl, by decide, rfl⟩, portOk_of_one rfl rfl rfl, rfl⟩

theorem inv_inStream (idx : Fin 577) : (inStream idx 0).Inv :=
  ⟨encoded_spacesOk, encoded_symOk, ⟨Nat.zero_le _, rfl⟩, portOk_of_one rfl rfl rfl, rfl⟩

theorem inv_stuck : stuck.Inv :=
  ⟨inv_encoded.spaces, inv_encoded.symbols, inv_encoded.transmitter, inv_encoded.port,
    show (decode 0x0400000000000000).toOption = none by decide⟩

theorem inv_stuckBusy : stuckBusy.Inv :=
  ⟨encoded_spacesOk, encoded_symOk, ⟨by decide, rfl⟩, portOk_of_one rfl rfl rfl, by decide, rfl⟩

theorem witness_EveryStepKeepsTheInvariant :
    (encoded.Inv ∧ step encoded = .next encoded) ∧
    ((inReset 2).Inv ∧ (nextOf (step (inReset 2))).isSome = true) ∧
    ((inStream 0 0).Inv ∧ step (inStream 0 0) = .next
      { inStream 1 1 with trace := [.write 0x10, .write 0x10] }) ∧
    (stuckBusy.Inv ∧ stuckBusy.fault.kind = .busy) :=
  ⟨⟨inv_encoded, rfl⟩, ⟨inv_inReset, rfl⟩, ⟨inv_inStream _, rfl⟩, inv_stuckBusy, rfl⟩

theorem witness_UnstoppedBlockAlwaysSteps :
    (inStream 575 0).Inv ∧ (inStream 575 0).stopped = false := ⟨inv_inStream _, rfl⟩

/-! ### Witnesses: the assembler and the reference host -/

/-- The bounds of each operand, and a text of two lines. -/
theorem witness_AssemblerYieldsLegalWords :
    natOf "255".toList = some 255 ∧ natOf "0x100".toList = some 256 ∧
    intOf "-2147483648".toList = some (-2147483648) ∧ intOf "2147483648".toList = some 2147483648 ∧
    instrsOfLine "CLRPIXEL -1".toList = some [.setpixel (-1) 0 0 0] ∧
    assemble "setpixel -1, 0, 0, 0 ; behind\nSHOW".toList =
      some [0x01000000FFFFFFFF, 0x0200000000000000, 0x0300000000000000] := by decide

/-- The texts at the bounds of the index. -/
theorem witness_TextOfAnInstructionAssembles :
    (Instr.setpixel (-2147483648) 0 0xFF 10).wf ∧
    instrText (.setpixel (-2147483648) 0 0xFF 10) = "SETPIXEL -2147483648, 0, 255, 10".toList ∧
    instrText (.setpixel 2147483647 9 99 100) = "SETPIXEL 2147483647, 9, 99, 100".toList ∧
    idxEncodable 2147483647 := by decide

/-- The first frame of the statement and one past a whole period. -/
theorem witness_AnimationStateInClosedForm : 1 ≤ 1 ∧ 1 ≤ 15 := by decide

/-- A bounce of each kind (ANI-1, frames 8 and 15). -/
theorem witness_BouncesOnlyAtTheEnds :
    (AnimState.after 7).bounces ∧ (AnimState.after 14).bounces ∧ ¬ (AnimState.after 1).bounces := by
  decide

theorem witness_ReferenceHostLightsOnePixel :
    ∀ c : Fin 8, ((fun i => ⟨0, 0, BitVec.ofNat 8 (i.val + 1)⟩ : Palette) c).lit := by decide

end Sys2Proof.Tests
end

/-! SUPPORT. The state of the block (10_state.md): what a step can come from, which commands write which
part of the state, and the invariant, rule by rule; then the statements of this family. -/

namespace Sys2Proof.Machine

variable {s t : State}

/-! ### What a step comes from -/

/-- Everything a command can do, by the instruction. -/
theorem exec_cases {i : Instr} (h : exec i s = .next t) :
    (s.busy = true ∧ t = s.raiseFault .busy (encode i)) ∨
    (∃ idx r g b, i = .setpixel idx r g b ∧ (t = s ∨ ∃ p, t = s.writePixel p r g b)) ∨
    (i = .encode ∧ s.busy = false ∧ t = s.encodeFrame.markSymValid) ∨
    (i = .transmit ∧ s.busy = false ∧ s.symValid = false ∧
      t = s.raiseFault .notEncoded (encode .transmit)) ∨
    (i = .transmit ∧ s.symValid = true ∧
      t = (s.portWrite s.cfg.codeIdle).setTx ⟨.reset, 0, s.cfg.resetSpin⟩) := by
  cases i with
  | setpixel idx r g b =>
    obtain ⟨-, ⟨hb, ht⟩ | ⟨-, -, ht⟩ | ⟨-, p, -, ht⟩⟩ := execSetpixel_cases h
    · exact .inl ⟨hb, ht⟩
    · exact .inr (.inl ⟨idx, r, g, b, rfl, .inl ht⟩)
    · exact .inr (.inl ⟨idx, r, g, b, rfl, .inr ⟨p, ht⟩⟩)
  | encode =>
    obtain ⟨-, ⟨hb, ht⟩ | ⟨hb, ht⟩⟩ := execEncode_cases h
    · exact .inl ⟨hb, ht⟩
    · exact .inr (.inr (.inl ⟨rfl, hb, ht⟩))
  | transmit =>
    obtain ⟨-, ⟨hb, ht⟩ | ⟨hb, hv, ht⟩ | ⟨-, hv, ht⟩⟩ := execTransmit_cases h
    · exact .inl ⟨hb, ht⟩
    · exact .inr (.inr (.inr (.inl ⟨rfl, hb, hv, ht⟩)))
    · exact .inr (.inr (.inr (.inr ⟨rfl, hv, ht⟩)))

/-- A step is a reset, a micro-step, or the arrival of a command word; `rest` is what the host will do
after it. -/
theorem step_origin (h : step s = .next t) :
    (∃ rest, (s.stopped = true ∨ ∃ e, s.host = e :: rest ∧ e.action = .reset) ∧
      t = (s.setHost rest).applyReset) ∨
    (s.stopped = false ∧ ∃ rest, microStep (s.setHost rest) = .next t) ∨
    (s.stopped = false ∧ ∃ e rest w, s.host = e :: rest ∧ e.action = .issue w ∧
      issue w (s.setHost rest) = .next t) := by
  obtain ⟨hs, rest, -, rfl⟩ | ⟨hs, -, hm⟩ | ⟨hs, e, rest, hh, ⟨-, -, hm⟩ | ⟨-, ha⟩⟩ := step_cases h
  · exact .inl ⟨rest, .inl hs, rfl⟩
  · exact .inr (.inl ⟨hs, s.host, hm⟩)
  · exact .inr (.inl ⟨hs, s.host, hm⟩)
  · cases he : e.action with
    | issue w => rw [he] at ha; exact .inr (.inr ⟨hs, e, rest, w, hh, he, ha⟩)
    | reset => rw [he] at ha; cases ha; exact .inl ⟨rest, .inr ⟨e, hh, he⟩, rfl⟩
    | idle => rw [he] at ha; exact .inr (.inl ⟨hs, rest, ha⟩)

/-- The step in which an event comes that does not have to wait. -/
theorem step_of_event {e : HostEvent} {rest : List HostEvent} (hs : s.stopped = false)
    (hh : s.host = e :: rest) (hb : e.blocking = false ∨ s.busy = false) :
    step s = act e.action (s.setHost rest) := by
  have hwait : (e.blocking && s.busy) = false := Bool.and_eq_false_iff.mpr hb
  simp [step, turn, hs, hh, hwait]

/-- The step in which a reset comes, on a block that runs or on a stopped one. -/
theorem step_of_reset {e : HostEvent} {rest : List HostEvent} (hh : s.host = e :: rest)
    (he : e.action = .reset) (hb : e.blocking = false ∨ s.busy = false ∨ s.stopped = true) :
    step s = .next (s.setHost rest).applyReset := by
  cases hs : s.stopped with
  | true =>
    have hr : afterReset? s.host = some rest := by
      rw [hh]; exact afterReset?_append (l := []) rest (by simp) he
    simp [step, turn, stoppedTurn, hs, hr]
  | false =>
    rw [step_of_event hs hh (by simpa [hs] using hb), he]
    rfl

/-! ### Which word is ENCODE's, and which is TRANSMIT's -/

theorem word_of_decode_encode {w : CmdWord} (h : decode w = .ok .encode) :
    w = 0x0200000000000000 := by
  obtain ⟨-, hd⟩ | ⟨ho, hr, -⟩ | ⟨-, -, hd⟩ | ⟨-, -, e, hd⟩ := decode_cases w
  · rw [hd] at h; cases h
  · rw [word_eq_fields w, ho, hr]; decide
  · rw [hd] at h; cases h
  · rw [hd] at h; cases h

theorem word_of_decode_transmit {w : CmdWord} (h : decode w = .ok .transmit) :
    w = 0x0300000000000000 := by
  obtain ⟨-, hd⟩ | ⟨-, -, hd⟩ | ⟨ho, hr, -⟩ | ⟨-, -, e, hd⟩ := decode_cases w
  · rw [hd] at h; cases h
  · rw [hd] at h; cases h
  · rw [word_eq_fields w, ho, hr]; decide
  · rw [hd] at h; cases h

/-- The word of an instruction is legal, whatever its index. -/
theorem decode_encode_legal (i : Instr) : (decode (encode i)).toOption ≠ none := by
  cases i with
  | setpixel idx r g b =>
    have hop : opField (encode (.setpixel idx r g b)) = 0x01 := opField_encode _
    rw [decode, if_pos hop]
    simp [Except.toOption]
  | encode => decide
  | transmit => decide

/-! ### Which command writes which part of the state -/

/-- The four things an arriving word can do: a fault is recorded, or the command has its effect. -/
theorem issue_effect {w : CmdWord} (h : issue w s = .next t) :
    (∃ kind cmd, t = s.raiseFault kind cmd) ∨
    ((∃ idx r g b, decode w = .ok (.setpixel idx r g b)) ∧
      (t = s ∨ ∃ p r g b, t = s.writePixel p r g b)) ∨
    (w = 0x0200000000000000 ∧ t = s.encodeFrame.markSymValid) ∨
    (w = 0x0300000000000000 ∧
      t = (s.portWrite s.cfg.codeIdle).setTx ⟨.reset, 0, s.cfg.resetSpin⟩) := by
  obtain ⟨i, hi, hx⟩ | ⟨e, -, ht⟩ := issue_cases h
  · obtain ⟨-, ht⟩ | ⟨idx, r, g, b, rfl, ht⟩ | ⟨rfl, -, ht⟩ | ⟨-, -, -, ht⟩ | ⟨rfl, -, ht⟩ :=
      exec_cases hx
    · exact .inl ⟨_, _, ht⟩
    · exact .inr (.inl ⟨⟨idx, r, g, b, hi⟩, ht.imp_right fun ⟨p, hp⟩ => ⟨p, r, g, b, hp⟩⟩)
    · exact .inr (.inr (.inl ⟨word_of_decode_encode hi, ht⟩))
    · exact .inl ⟨_, _, ht⟩
    · exact .inr (.inr (.inr ⟨word_of_decode_transmit hi, ht⟩))
  · exact .inl ⟨_, _, ht⟩

theorem issue_cfg {w : CmdWord} (h : issue w s = .next t) : t.cfg = s.cfg := by
  obtain ⟨_, _, rfl⟩ | ⟨-, rfl | ⟨_, _, _, _, rfl⟩⟩ | ⟨-, rfl⟩ | ⟨-, rfl⟩ := issue_effect h <;> rfl

/-- Of all words only those of SETPIXEL write PIX (R24). -/
theorem issue_pix {w : CmdWord} (h : issue w s = .next t) :
    t.pix = s.pix ∨ ∃ idx r g b, decode w = .ok (.setpixel idx r g b) := by
  obtain ⟨_, _, rfl⟩ | ⟨hw, -⟩ | ⟨-, rfl⟩ | ⟨-, rfl⟩ := issue_effect h
  · exact .inl rfl
  · exact .inr hw
  · exact .inl rfl
  · exact .inl rfl

/-- Of all words only ENCODE's writes SYM and SYM_VALID, and SYM_VALID is then 1 (R25, R26). -/
theorem issue_sym {w : CmdWord} (h : issue w s = .next t) :
    (t.sym = s.sym ∧ t.symValid = s.symValid) ∨
      (w = 0x0200000000000000 ∧ t.symValid = true) := by
  obtain ⟨_, _, rfl⟩ | ⟨-, rfl | ⟨_, _, _, _, rfl⟩⟩ | ⟨hw, rfl⟩ | ⟨-, rfl⟩ := issue_effect h
  · exact .inl ⟨rfl, rfl⟩
  · exact .inl ⟨rfl, rfl⟩
  · exact .inl ⟨rfl, rfl⟩
  · exact .inr ⟨hw, rfl⟩
  · exact .inl ⟨rfl, rfl⟩

/-- Of all words only TRANSMIT's writes the port (R29). -/
theorem issue_port {w : CmdWord} (h : issue w s = .next t) :
    (t.trace = s.trace ∧ t.line = s.line) ∨
      (w = 0x0300000000000000 ∧ ∃ b, t.trace = s.trace ++ [.write b] ∧ t.line = .driven b) := by
  obtain ⟨_, _, rfl⟩ | ⟨-, rfl | ⟨_, _, _, _, rfl⟩⟩ | ⟨-, rfl⟩ | ⟨hw, rfl⟩ := issue_effect h
  · exact .inl ⟨rfl, rfl⟩
  · exact .inl ⟨rfl, rfl⟩
  · exact .inl ⟨rfl, rfl⟩
  · exact .inl ⟨rfl, rfl⟩
  · exact .inr ⟨hw, s.cfg.codeIdle, rfl, rfl⟩

/-- A micro-step makes at most one port event, and only while the block is busy (R29, R140). -/
theorem microStep_port (h : microStep s = .next t) :
    (t.trace = s.trace ∧ t.line = s.line) ∨
      (s.busy = true ∧ ((t.trace = s.trace ++ [.spin] ∧ t.line = s.line) ∨
        ∃ b, t.trace = s.trace ++ [.write b] ∧ t.line = .driven b)) := by
  have busy : s.tx.phase = .stream → s.busy = true := fun hp => by simp [State.busy_iff, hp]
  obtain ⟨-, rfl⟩ | ⟨hp, -, rfl⟩ | ⟨-, -, rfl⟩ | ⟨hp, -, -, b, -, rfl⟩ | ⟨hp, -, -, rfl⟩ :=
    microStep_cases h
  · exact .inl ⟨rfl, rfl⟩
  · exact .inr ⟨(State.busy_iff s).mpr hp, .inl ⟨rfl, rfl⟩⟩
  · exact .inl ⟨rfl, rfl⟩
  · exact .inr ⟨busy hp, .inr ⟨b, rfl, rfl⟩⟩
  · exact .inr ⟨busy hp, .inr ⟨s.cfg.codeIdle, rfl, rfl⟩⟩

/-! ### The reset state -/

theorem State.applyReset_atReset (s : State) : s.applyReset.AtReset where
  pix _ := rfl
  sym _ := rfl
  symValid := rfl
  tx := rfl
  line := rfl
  trace := rfl
  fault := rfl

theorem State.applyReset_inv (s : State) : s.applyReset.Inv where
  spaces := ⟨Memory.wf_nil _ _, Memory.wf_nil _ _⟩
  symbols := rfl
  transmitter := ⟨rfl, rfl⟩
  port := ⟨rfl, by simp⟩
  faults := rfl

/-! ### The invariant, clause by clause -/

@[simp] theorem lineAfter_write (trace : List PortEvent) (b : Byte) :
    lineAfter (trace ++ [.write b]) = .driven b := by simp [lineAfter]

@[simp] theorem lineAfter_spin (trace : List PortEvent) :
    lineAfter (trace ++ [.spin]) = lineAfter trace := by simp [lineAfter]

theorem State.portOk_portWrite {b : Byte} (h : s.portOk) (hb : isLevelCode s.cfg b) :
    (s.portWrite b).portOk := by
  obtain ⟨-, hcodes⟩ := h
  refine ⟨by simp, fun e he c hc => ?_⟩
  subst hc
  obtain he | he := List.mem_append.mp he
  · exact hcodes _ he c rfl
  · obtain rfl : c = b := by simpa using he
    exact hb

theorem State.portOk_spinEvent (h : s.portOk) : s.spinEvent.portOk := by
  obtain ⟨hline, hcodes⟩ := h
  refine ⟨by simpa using hline, fun e he c hc => ?_⟩
  subst hc
  exact hcodes _ (by simpa using he) c rfl

/-- Every byte a slot may hold is a level code (R28). -/
theorem isLevelCode_of_fitsSlot {cfg : Config} {a : Nat} {b : Byte} (h : fitsSlot cfg a b) :
    isLevelCode cfg b := by
  unfold fitsSlot at h
  split at h
  · exact .inr h
  · exact .inl h

/-- What ENCODE leaves in a slot is what the slot may hold (R110). -/
theorem State.fitsSlot_frameByte (s : State) (a : SymAddr) :
    fitsSlot s.cfg a.val (s.frameByte a) := by
  unfold fitsSlot State.frameByte frameByteOf
  split
  · unfold level
    split
    · exact .inr rfl
    · exact .inl rfl
  · rfl

/-- What a filled SYM reads as is a level code (R28). -/
theorem State.symOk_levelCode {a : SymAddr} {b : Byte} (h : s.symOk) (hv : s.symValid = true)
    (hb : s.symRead a = some b) : isLevelCode s.cfg b := by
  rw [State.symOk, if_pos hv] at h
  obtain ⟨c, hc, hfit⟩ := h a
  obtain rfl : b = c := Option.some.inj (hb.symm.trans hc)
  exact isLevelCode_of_fitsSlot hfit

/-- While nothing is recorded in FAULT, nothing else bears on its clause. -/
theorem State.faultOk_of_unchanged (h : s.faultOk) (hs : s.stopped = false)
    (hf : t.fault = s.fault) : t.faultOk := by
  rw [State.not_stopped_iff] at hs
  simp only [State.faultOk, hf, hs] at h ⊢
  exact h

/-- In a transmission SYM is filled (R202). -/
theorem State.symValid_of_txOk (h : s.txOk) (hp : s.tx.phase ≠ .ready) : s.symValid = true := by
  unfold State.txOk at h
  split at h
  · next hr => exact absurd hr hp
  · exact h.2.2
  · exact h.2

/-! ### The invariant, effect by effect -/

theorem State.Inv.setHost (h : s.Inv) (events : List HostEvent) : (s.setHost events).Inv :=
  ⟨h.spaces, h.symbols, h.transmitter, h.port, h.faults⟩

theorem State.Inv.raiseFault {kind : FaultKind} {w : CmdWord} (h : s.Inv)
    (hf : (s.raiseFault kind w).faultOk) : (s.raiseFault kind w).Inv :=
  ⟨h.spaces, h.symbols, h.transmitter, h.port, hf⟩

theorem State.Inv.writePixel (h : s.Inv) (p : Fin 8) (r g b : Byte) : (s.writePixel p r g b).Inv :=
  ⟨⟨State.writePixel_wf p r g b h.spaces.1, h.spaces.2⟩, h.symbols, h.transmitter, h.port, h.faults⟩

theorem State.Inv.encodeFrame (h : s.Inv) (hs : s.stopped = false) (hb : s.busy = false) :
    s.encodeFrame.markSymValid.Inv where
  spaces := ⟨h.spaces.1, frameCells_wf s⟩
  symbols a := ⟨s.frameByte a, symRead_encodeFrame s a, s.fitsSlot_frameByte a⟩
  transmitter := by
    rw [State.not_busy_iff] at hb
    have htx := h.transmitter
    simp only [State.txOk, hb] at htx
    simpa [State.txOk, State.encodeFrame, hb] using htx
  port := h.port
  faults := State.faultOk_of_unchanged h.faults hs rfl

/-- The start of a TRANSMIT (R130). -/
theorem State.Inv.startTransmit (h : s.Inv) (hs : s.stopped = false) (hv : s.symValid = true) :
    ((s.portWrite s.cfg.codeIdle).setTx ⟨.reset, 0, s.cfg.resetSpin⟩).Inv where
  spaces := h.spaces
  symbols := h.symbols
  transmitter := ⟨rfl, Nat.le_refl _, hv⟩
  port := State.portOk_portWrite h.port (.inl rfl)
  faults := State.faultOk_of_unchanged h.faults hs rfl

/-- One spin of a hold (R131). -/
theorem State.Inv.holdStep (h : s.Inv) (hs : s.stopped = false) (hp : s.tx.phase ≠ .ready) :
    s.holdStep.Inv where
  spaces := h.spaces
  symbols := h.symbols
  transmitter := by
    have htx := h.transmitter
    cases hphase : s.tx.phase with
    | ready => exact absurd hphase hp
    | reset =>
      simp only [State.txOk, hphase] at htx
      obtain ⟨hidx, hspin, hv⟩ := htx
      simp only [State.txOk, State.holdStep, State.setTx_tx, hphase]
      exact ⟨hidx, (Nat.sub_le _ _).trans hspin, hv⟩
    | stream =>
      simp only [State.txOk, hphase] at htx
      obtain ⟨hspin, hv⟩ := htx
      simp only [State.txOk, State.holdStep, State.setTx_tx, hphase]
      exact ⟨(Nat.sub_le _ _).trans hspin, hv⟩
  port := State.portOk_spinEvent h.port
  faults := State.faultOk_of_unchanged h.faults hs rfl

/-- The end of the reset hold (R132). -/
theorem State.Inv.endResetStep (h : s.Inv) (hs : s.stopped = false) (hp : s.tx.phase = .reset)
    (hspin : s.tx.spin = 0) : s.endResetStep.Inv where
  spaces := h.spaces
  symbols := h.symbols
  transmitter := by
    have hv : s.symValid = true := State.symValid_of_txOk h.transmitter (by simp [hp])
    simp [State.txOk, State.endResetStep, hspin, hv]
  port := h.port
  faults := State.faultOk_of_unchanged h.faults hs rfl

/-- A symbol-byte write (R133). -/
theorem State.Inv.symbolByteStep {b : Byte} (h : s.Inv) (hs : s.stopped = false)
    (hp : s.tx.phase = .stream) (hi : s.tx.idx.val < 576)
    (hb : s.symRead ⟨s.tx.idx.val, hi⟩ = some b) :
    ((s.portWrite b).setTx
      { s.tx with idx := ⟨s.tx.idx.val + 1, by omega⟩, spin := s.cfg.slotSpin }).Inv := by
  have hv : s.symValid = true := State.symValid_of_txOk h.transmitter (by simp [hp])
  exact
    { spaces := h.spaces
      symbols := h.symbols
      transmitter := by simp [State.txOk, hp, hv]
      port := State.portOk_portWrite h.port (State.symOk_levelCode h.symbols hv hb)
      faults := State.faultOk_of_unchanged h.faults hs rfl }

/-- The idle-phase write (R136). -/
theorem State.Inv.idleWriteStep (h : s.Inv) (hs : s.stopped = false) (hspin : s.tx.spin = 0) :
    s.idleWriteStep.Inv where
  spaces := h.spaces
  symbols := h.symbols
  transmitter := ⟨rfl, hspin⟩
  port := State.portOk_portWrite h.port (.inl rfl)
  faults := State.faultOk_of_unchanged h.faults hs rfl

/-! ### The invariant, by what a step comes from -/

theorem State.Inv.microStep (h : s.Inv) (hs : s.stopped = false) (hm : microStep s = .next t) :
    t.Inv := by
  obtain ⟨-, rfl⟩ | ⟨hp, -, rfl⟩ | ⟨hp, hspin, rfl⟩ | ⟨hp, -, hi, b, hb, rfl⟩ | ⟨-, hspin, -, rfl⟩ :=
    microStep_cases hm
  · exact h
  · exact h.holdStep hs hp
  · exact h.endResetStep hs hp hspin
  · exact h.symbolByteStep hs hp hi hb
  · exact h.idleWriteStep hs hspin

theorem State.Inv.exec {i : Instr} (h : s.Inv) (hs : s.stopped = false) (hx : exec i s = .next t) :
    t.Inv := by
  obtain ⟨hb, rfl⟩ | ⟨idx, r, g, b, -, rfl | ⟨p, rfl⟩⟩ | ⟨-, hb, rfl⟩ | ⟨-, hb, hv, rfl⟩ | ⟨-, hv, rfl⟩ :=
    exec_cases hx
  · exact h.raiseFault ⟨decode_encode_legal i, hb⟩
  · exact h
  · exact h.writePixel p r g b
  · exact h.encodeFrame hs hb
  · exact h.raiseFault ⟨rfl, hv, hb⟩
  · exact h.startTransmit hs hv

theorem State.Inv.issue {w : CmdWord} (h : s.Inv) (hs : s.stopped = false)
    (hx : issue w s = .next t) : t.Inv := by
  obtain ⟨i, -, hx⟩ | ⟨e, he, rfl⟩ := issue_cases hx
  · exact h.exec hs hx
  · exact h.raiseFault (show (decode w).toOption = none by rw [he]; rfl)

theorem State.Inv.step (h : s.Inv) (hstep : step s = .next t) : t.Inv := by
  obtain ⟨rest, -, rfl⟩ | ⟨hs, rest, hm⟩ | ⟨hs, e, rest, w, -, -, hw⟩ := step_origin hstep
  · exact State.applyReset_inv _
  · exact (h.setHost rest).microStep hs hm
  · exact (h.setHost rest).issue hs hw

/-! ### The statements -/

/-- Settles O42: a reset gives the reset state, which meets the invariant, and a micro-step or an
arriving word keeps it, effect by effect. -/
theorem everyStepKeepsTheInvariant : Obligations.EveryStepKeepsTheInvariant :=
  fun _ _ h hstep => h.step hstep

/-- Settles O4: neither a reset, nor a micro-step, nor a command word writes CFG. -/
theorem noStepChangesTheConfiguration : Obligations.NoStepChangesTheConfiguration := by
  intro s t h
  obtain ⟨rest, -, rfl⟩ | ⟨-, rest, hm⟩ | ⟨-, e, rest, w, -, -, hw⟩ := step_origin h
  · rfl
  · exact (microStep_cfg hm).trans (s.setHost_cfg rest)
  · exact (issue_cfg hw).trans (s.setHost_cfg rest)

/-- Settles O20: a micro-step leaves PIX, and of the words only SETPIXEL's write it. -/
theorem onlySetpixelWritesPix : Obligations.OnlySetpixelWritesPix := by
  intro s t hs h hne
  obtain ⟨rest, hr | ⟨e, hh, he⟩, -⟩ | ⟨-, rest, hm⟩ | ⟨-, e, rest, w, hh, he, hw⟩ := step_origin h
  · simp [hs] at hr
  · exact ⟨e, rest, hh, .inl he⟩
  · exact absurd (microStep_pix hm) hne
  · obtain hpix | ⟨idx, r, g, b, hd⟩ := issue_pix hw
    · exact absurd hpix hne
    · exact ⟨e, rest, hh, .inr ⟨w, idx, r, g, b, he, hd⟩⟩

/-- Settles O28: a micro-step leaves SYM and SYM_VALID, and of the words only ENCODE's writes them. -/
theorem onlyEncodeWritesSym : Obligations.OnlyEncodeWritesSym := by
  intro s t hs h hne
  obtain ⟨rest, hr | ⟨e, hh, he⟩, -⟩ | ⟨-, rest, hm⟩ | ⟨-, e, rest, w, hh, he, hw⟩ := step_origin h
  · simp [hs] at hr
  · exact ⟨e, rest, hh, .inl he⟩
  · simp [microStep_sym hm, microStep_symValid hm] at hne
  · obtain ⟨hsym, hvalid⟩ | ⟨rfl, hvalid⟩ := issue_sym hw
    · simp [hsym, hvalid] at hne
    · exact ⟨e, rest, hh, .inr ⟨he, hvalid⟩⟩

/-- Settles O40: a micro-step makes one event at most, while the block is busy, and of the words only
TRANSMIT's makes one. -/
theorem onlyTransmitWritesThePort : Obligations.OnlyTransmitWritesThePort := by
  intro s t hs hreset h
  obtain ⟨rest, hr | ⟨e, hh, he⟩, -⟩ | ⟨-, rest, hm⟩ | ⟨-, e, rest, w, hh, he, hw⟩ := step_origin h
  · simp [hs] at hr
  · exact absurd he (hreset e (by simp [hh]))
  · obtain hsame | ⟨hb, hport⟩ := microStep_port hm
    · exact .inl hsame
    · exact .inr ⟨.inl hb, hport⟩
  · obtain hsame | ⟨rfl, hport⟩ := issue_port hw
    · exact .inl hsame
    · exact .inr ⟨.inr ⟨e, by simp [hh], he⟩, .inr hport⟩

/-- Settles O1: construction and every reset that comes give the reset table. -/
theorem resetGivesTheResetTable : Obligations.ResetGivesTheResetTable := by
  refine ⟨State.applyReset_atReset State.reset, ?_⟩
  intro s e rest hh he hb
  exact ⟨_, step_of_reset hh he hb, State.applyReset_atReset _, rfl, rfl⟩

/-- Settles O3: the test of `Config.make?` is the order of the bytes as numbers. -/
theorem configurationNeedsLowBelowHigh : Obligations.ConfigurationNeedsLowBelowHigh := by
  intro idle low high slotSpin resetSpin
  refine ⟨fun h => dif_neg ?_, fun h => ?_⟩
  · rw [BitVec.lt_def]; omega
  · exact ⟨⟨idle, low, high, slotSpin, resetSpin, BitVec.lt_def.mpr h⟩, dif_pos _,
      rfl, rfl, rfl, rfl, rfl⟩

/-- Settles O41: the reset state is what a reset makes of it, and a reset gives the invariant. -/
theorem invariantAtReset : Obligations.InvariantAtReset :=
  State.applyReset_inv State.reset

end Sys2Proof.Machine

/-! SUPPORT. The memory and its order (20_memory.md): the word a host issues and the step it comes in, a whole
TRANSMIT as one run, and the frame that it sends; then the statements of this family. -/

namespace Sys2Proof

/-! ### Decoding an encoded instruction -/

/-- The two parts of a concatenation are determined by it. -/
theorem append_parts_eq {m n : Nat} {a a' : BitVec m} {b b' : BitVec n} (h : a ++ b = a' ++ b') :
    a = a' ∧ b = b' := by
  constructor
  · rw [← BitVec.extractLsb'_append_eq_left (a := a) (b := b), h, BitVec.extractLsb'_append_eq_left]
  · rw [← BitVec.extractLsb'_append_eq_right (a := a) (b := b), h, BitVec.extractLsb'_append_eq_right]

/-- The operand fields of SETPIXEL's word hold its operands (R71, R72). -/
theorem setpixel_fields (idx : Int) (r g b : Byte) :
    redField (encode (.setpixel idx r g b)) = r ∧ greenField (encode (.setpixel idx r g b)) = g ∧
    blueField (encode (.setpixel idx r g b)) = b ∧
    (encode (.setpixel idx r g b)).extractLsb' 0 32 = BitVec.ofInt 32 idx := by
  have h := (reservedField_eq_operands _).symm.trans (reservedField_encode (.setpixel idx r g b))
  obtain ⟨h, hidx⟩ := append_parts_eq h
  obtain ⟨h, hb⟩ := append_parts_eq h
  obtain ⟨hr, hg⟩ := append_parts_eq h
  exact ⟨hr, hg, hb, hidx⟩

/-- The word of a well-formed instruction decodes to the instruction (R71, R72, R74). -/
theorem decode_encode {i : Instr} (h : i.wf) : decode (encode i) = .ok i := by
  cases i with
  | setpixel idx r g b =>
    have hop : opField (encode (.setpixel idx r g b)) = 0x01 := opField_encode _
    obtain ⟨hr, hg, hb, hidx⟩ := setpixel_fields idx r g b
    rw [decode, if_pos hop, idxField_eq, hidx, toInt_idx h, hr, hg, hb]
  | encode => decide
  | transmit => decide

end Sys2Proof

namespace Sys2Proof.Machine

variable {s t : State}

/-! ### The step in which a legal word comes -/

/-- A legal word that arrives is performed (R206). -/
theorem issue_of_legal {w : CmdWord} {i : Instr} (hd : decode w = .ok i) : issue w s = exec i s := by
  rw [issue, hd]

/-- `withFetchWord`, given a whole word, has the host issue that word (log 23). -/
theorem State.withFetchWord_toNat (s : State) (w : CmdWord) :
    s.withFetchWord 64 w.toNat = s.withCommand w := by
  rw [State.withFetchWord, Nat.mod_eq_of_lt w.isLt, BitVec.ofNat_toNat, BitVec.setWidth_eq]

/-- The step in which the host issues a legal word and does not have to wait. -/
theorem step_of_legal_word {e : HostEvent} {rest : List HostEvent} {w : CmdWord} {i : Instr}
    (hs : s.stopped = false) (hh : s.host = e :: rest) (he : e.action = .issue w)
    (hb : e.blocking = false ∨ s.busy = false) (hd : decode w = .ok i) :
    step s = exec i (s.setHost rest) := by
  rw [step_of_event hs hh hb, he, act, issue_of_legal hd]

/-- The step in which the blocking call of a command comes. -/
theorem step_call {i : Instr} (h : s.accepts) (hi : i.wf) (rest : List HostEvent) :
    step (s.setHost (.call (encode i) :: rest)) = exec i (s.setHost rest) :=
  step_of_legal_word (s := s.setHost (.call (encode i) :: rest)) h.1 rfl rfl (.inr h.2)
    (decode_encode hi)

/-! ### What each command does in a block that accepts it -/

/-- What a SETPIXEL makes of PIX (R100, R101). -/
def Memory.setPixel (idx : Int) (r g b : Byte) (m : Memory) : Memory :=
  match pixelOf idx with
  | some p => Memory.writeByte pixBlank (pixAddr p 2).val b
      (Memory.writeByte pixBlank (pixAddr p 1).val r (Memory.writeByte pixBlank (pixAddr p 0).val g m))
  | none => m

theorem exec_setpixel_of_accepts (h : s.accepts) (idx : Int) (r g b : Byte) :
    exec (.setpixel idx r g b) s = .next { s with pix := Memory.setPixel idx r g b s.pix } := by
  rw [exec, execSetpixel, accept_of_ready h.1 h.2]
  unfold Memory.setPixel
  cases pixelOf idx with
  | none => rfl
  | some p => rfl

theorem exec_encode_of_accepts (h : s.accepts) :
    exec .encode s = .next s.encodeFrame.markSymValid := by
  rw [exec, execEncode, accept_of_ready h.1 h.2]

theorem exec_transmit_of_accepts (h : s.accepts) (hv : s.symValid = true) :
    exec .transmit s = .next ((s.portWrite s.cfg.codeIdle).setTx ⟨.reset, 0, s.cfg.resetSpin⟩) := by
  rw [exec, execTransmit, accept_of_ready h.1 h.2, if_pos hv]

theorem step_call_setpixel {idx : Int} (h : s.accepts) (hi : idxEncodable idx) (r g b : Byte)
    (rest : List HostEvent) :
    step (s.setHost (.call (encode (.setpixel idx r g b)) :: rest)) =
      .next (State.setHost rest { s with pix := Memory.setPixel idx r g b s.pix }) :=
  (step_call h hi rest).trans (exec_setpixel_of_accepts (s := s.setHost rest) h idx r g b)

theorem step_call_encode (h : s.accepts) (rest : List HostEvent) :
    step (s.setHost (.call (encode .encode) :: rest)) =
      .next (s.encodeFrame.markSymValid.setHost rest) :=
  (step_call h trivial rest).trans (exec_encode_of_accepts (s := s.setHost rest) h)

theorem step_call_transmit (h : s.accepts) (hv : s.symValid = true) (rest : List HostEvent) :
    step (s.setHost (.call (encode .transmit) :: rest)) =
      .next (((s.portWrite s.cfg.codeIdle).setTx ⟨.reset, 0, s.cfg.resetSpin⟩).setHost rest) :=
  (step_call h trivial rest).trans (exec_transmit_of_accepts (s := s.setHost rest) h hv)

/-! ### Each micro-step under its guard -/

/-- R131: a spin of a hold. -/
theorem microStep_of_hold (hp : s.tx.phase ≠ .ready) (hspin : 0 < s.tx.spin) :
    microStep s = .next s.holdStep := by
  unfold microStep
  split
  · next h => exact absurd h hp
  · exact if_pos hspin
  · exact if_pos hspin

/-- R132: the end of the reset hold. -/
theorem microStep_of_endReset (hp : s.tx.phase = .reset) (hspin : s.tx.spin = 0) :
    microStep s = .next s.endResetStep := by
  simp [microStep, hp, hspin]

/-- R133: a symbol byte. -/
theorem microStep_of_symbolByte {b : Byte} (hp : s.tx.phase = .stream) (hspin : s.tx.spin = 0)
    (hi : s.tx.idx.val < 576) (hb : s.symRead ⟨s.tx.idx.val, hi⟩ = some b) :
    microStep s = .next ((s.portWrite b).setTx
      { s.tx with idx := ⟨s.tx.idx.val + 1, by omega⟩, spin := s.cfg.slotSpin }) := by
  simp [microStep, State.symbolByteStep, hp, hspin, hi, hb]

/-- R136: the idle-phase write. -/
theorem microStep_of_idleWrite (hp : s.tx.phase = .stream) (hspin : s.tx.spin = 0)
    (hi : s.tx.idx.val = 576) : microStep s = .next s.idleWriteStep := by
  simp [microStep, hp, hspin, hi]

/-! ### A transmission under way: the steps and the events it still has to make

Every micro-step takes one off `stepsLeft` and leaves `afterTransmit`, the state in which the transmission will
end, as it is. So a transmission runs to that state, from whatever point it has reached. -/

/-- The events of the slots from `a` on, and of the idle write after them (R133, R136). -/
def eventsFrom (cfg : Config) (bytes : SymAddr → Byte) (a : Nat) : List PortEvent :=
  ((List.finRange 576).drop a).flatMap (fun a => slotEvents cfg (bytes a)) ++ [.write cfg.codeIdle]

/-- A slot is its byte, its hold, and then the slots after it. -/
theorem eventsFrom_of_lt (cfg : Config) (bytes : SymAddr → Byte) {a : Nat} (h : a < 576) :
    eventsFrom cfg bytes a =
      .write (bytes ⟨a, h⟩) :: (List.replicate cfg.slotSpin .spin ++ eventsFrom cfg bytes (a + 1)) := by
  rw [eventsFrom, List.drop_eq_getElem_cons (by simpa using h)]
  simp [eventsFrom, slotEvents]

/-- After the last slot only the idle write is left. -/
theorem eventsFrom_end (cfg : Config) (bytes : SymAddr → Byte) :
    eventsFrom cfg bytes 576 = [.write cfg.codeIdle] := by
  rw [eventsFrom, List.drop_of_length_le (by simp)]
  rfl

/-- The events of a TRANSMIT are the reset phase and then those of all the slots (R137). -/
theorem transmitEvents_eq (cfg : Config) (bytes : SymAddr → Byte) :
    transmitEvents cfg bytes =
      .write cfg.codeIdle :: (List.replicate cfg.resetSpin .spin ++ eventsFrom cfg bytes 0) := by
  simp [transmitEvents, eventsFrom]

/-- The micro-steps that are left of a transmission (R131 to R136). -/
def State.stepsLeft (s : State) : Nat :=
  match s.tx.phase with
  | .ready => 0
  | .reset => s.tx.spin + 576 * (1 + s.cfg.slotSpin) + 2
  | .stream => s.tx.spin + (576 - s.tx.idx.val) * (1 + s.cfg.slotSpin) + 1

/-- The end of a transmission that still makes the events `events` (R138). -/
def State.finishTransmit (events : List PortEvent) (s : State) : State :=
  { s with tx := ⟨.ready, 0, 0⟩, line := .driven s.cfg.codeIdle, trace := s.trace ++ events }

/-- The state in which the transmission under way ends, with `bytes` in SYM. -/
def State.afterTransmit (bytes : SymAddr → Byte) (s : State) : State :=
  match s.tx.phase with
  | .ready => s
  | .reset => s.finishTransmit (List.replicate s.tx.spin .spin ++ eventsFrom s.cfg bytes 0)
  | .stream =>
    s.finishTransmit (List.replicate s.tx.spin .spin ++ eventsFrom s.cfg bytes s.tx.idx.val)

theorem State.stepsLeft_eq_zero_iff : s.stepsLeft = 0 ↔ s.tx.phase = .ready := by
  unfold State.stepsLeft
  split <;> simp [*]

theorem State.afterTransmit_of_ready (bytes : SymAddr → Byte) (h : s.tx.phase = .ready) :
    s.afterTransmit bytes = s := by simp [State.afterTransmit, h]

/-- A transmission ends alike from two points of it when the events made and those left are together
the same. -/
theorem State.finishTransmit_congr {events events' : List PortEvent} (h : microStep s = .next t)
    (he : t.trace ++ events = s.trace ++ events') :
    t.finishTransmit events = s.finishTransmit events' := by
  simp only [State.finishTransmit, he]
  rw [microStep_frame h]

/-- A spin of a hold brings the end one step nearer (R131). -/
theorem holdStep_advances (bytes : SymAddr → Byte) (hp : s.tx.phase ≠ .ready) (hspin : 0 < s.tx.spin) :
    s.holdStep.stepsLeft + 1 = s.stepsLeft ∧
      s.holdStep.afterTransmit bytes = s.afterTransmit bytes := by
  have hm := microStep_of_hold hp hspin
  have hspins : List.replicate s.tx.spin PortEvent.spin =
      .spin :: List.replicate (s.tx.spin - 1) .spin := by
    rw [← List.replicate_succ, Nat.sub_add_cancel hspin]
  cases hphase : s.tx.phase with
  | ready => exact absurd hphase hp
  | reset | stream =>
    simp only [State.stepsLeft, State.afterTransmit, State.holdStep, State.setTx_tx, State.setTx_cfg,
      State.spinEvent_cfg, hphase] at hm ⊢
    exact ⟨by omega, State.finishTransmit_congr hm (by simp [hspins])⟩

/-- So does the end of the reset hold (R132). -/
theorem endResetStep_advances (bytes : SymAddr → Byte) (hp : s.tx.phase = .reset)
    (hspin : s.tx.spin = 0) :
    s.endResetStep.stepsLeft + 1 = s.stepsLeft ∧
      s.endResetStep.afterTransmit bytes = s.afterTransmit bytes := by
  have hm := microStep_of_endReset hp hspin
  simp only [State.stepsLeft, State.afterTransmit, State.endResetStep, State.setTx_tx, hp] at hm ⊢
  exact ⟨by simp, State.finishTransmit_congr hm (by simp)⟩

/-- So does a symbol-byte write (R133). -/
theorem symbolByteStep_advances (bytes : SymAddr → Byte) (hp : s.tx.phase = .stream)
    (hspin : s.tx.spin = 0) (hi : s.tx.idx.val < 576)
    (hb : s.symRead ⟨s.tx.idx.val, hi⟩ = some (bytes ⟨s.tx.idx.val, hi⟩))
    (hm : microStep s = .next t) :
    t.stepsLeft + 1 = s.stepsLeft ∧ t.afterTransmit bytes = s.afterTransmit bytes := by
  obtain rfl := Host.Outcome.next.inj (hm.symm.trans (microStep_of_symbolByte hp hspin hi hb))
  have hslots : 576 - s.tx.idx.val = 576 - (s.tx.idx.val + 1) + 1 := by omega
  simp only [State.stepsLeft, State.afterTransmit, State.setTx_tx, hp] at hm ⊢
  refine ⟨?_, State.finishTransmit_congr hm ?_⟩
  · simp only [hspin, hslots, Nat.succ_mul, State.setTx_cfg, State.portWrite_cfg]; omega
  · simp [hspin, eventsFrom_of_lt _ _ hi]

/-- The idle-phase write is the last step (R136). -/
theorem idleWriteStep_advances (bytes : SymAddr → Byte) (hp : s.tx.phase = .stream)
    (hspin : s.tx.spin = 0) (hi : s.tx.idx.val = 576) :
    s.idleWriteStep.stepsLeft + 1 = s.stepsLeft ∧
      s.idleWriteStep.afterTransmit bytes = s.afterTransmit bytes := by
  constructor
  · simp [State.stepsLeft, State.idleWriteStep, hp, hspin, hi]
  · rw [State.afterTransmit_of_ready bytes rfl]
    simp [State.afterTransmit, State.idleWriteStep, State.finishTransmit, hp, hspin, hi,
      eventsFrom_end, State.portWrite, State.setTx]

/-- While a transmission with a filled buffer is under way, its micro-step brings the end one step nearer:
the spin of a hold, or else what the phase and the index ask for. -/
theorem microStep_advances {bytes : SymAddr → Byte} (hp : s.tx.phase ≠ .ready)
    (hbytes : ∀ a, s.symRead a = some (bytes a)) :
    ∃ t, microStep s = .next t ∧ t.stepsLeft + 1 = s.stepsLeft ∧
      t.afterTransmit bytes = s.afterTransmit bytes := by
  obtain hspin | hspin := (Nat.eq_zero_or_pos s.tx.spin).symm
  · exact ⟨_, microStep_of_hold hp hspin, holdStep_advances bytes hp hspin⟩
  cases hphase : s.tx.phase with
  | ready => exact absurd hphase hp
  | reset => exact ⟨_, microStep_of_endReset hphase hspin, endResetStep_advances bytes hphase hspin⟩
  | stream =>
    obtain hi | hi : s.tx.idx.val < 576 ∨ s.tx.idx.val = 576 := by omega
    · have hm := microStep_of_symbolByte hphase hspin hi (hbytes _)
      exact ⟨_, hm, symbolByteStep_advances bytes hphase hspin hi (hbytes _) hm⟩
    · exact ⟨_, microStep_of_idleWrite hphase hspin hi, idleWriteStep_advances bytes hphase hspin hi⟩

/-- A transmission whose host waits, after `k` of the steps it has left: it has `k` fewer left, and it
will end in the same state. -/
theorem runSteps_of_transmission {bytes : SymAddr → Byte} {k : Nat} (hw : s.hostWaits)
    (hbytes : ∀ a, s.symRead a = some (bytes a)) (hk : k ≤ s.stepsLeft) :
    ∃ t, runSteps k s = .next t ∧ t.stepsLeft + k = s.stepsLeft ∧ t.host = s.host ∧
      t.afterTransmit bytes = s.afterTransmit bytes := by
  induction k generalizing s with
  | zero => exact ⟨s, rfl, rfl, rfl, rfl⟩
  | succ k ih =>
    obtain ⟨hs, hh⟩ := hw
    have hp : s.tx.phase ≠ .ready := fun h => by rw [State.stepsLeft_eq_zero_iff.mpr h] at hk; omega
    obtain ⟨u, hm, hleft, hafter⟩ := microStep_advances hp hbytes
    have hstep : step s = .next u := (step_of_waiting hs hh (s.busy_iff.mpr hp)).trans hm
    have hhost : u.host = s.host := microStep_host hm
    have hwu : u.hostWaits := by
      refine ⟨?_, by rwa [hhost]⟩
      rw [State.not_stopped_iff] at hs ⊢
      rwa [microStep_fault hm]
    have hbu : ∀ a, u.symRead a = some (bytes a) := fun a => by
      rw [State.symRead_congr (microStep_sym hm), hbytes]
    obtain ⟨t, hrun, hleft', hhost', hafter'⟩ := ih hwu hbu (by omega)
    exact ⟨t, (runSteps_of_step hstep).trans hrun, by omega, hhost'.trans hhost,
      hafter'.trans hafter⟩

/-- A TRANSMIT issued with a filled buffer, by a host that then waits, sends the buffer and ends after the
steps of R137 in the state of R138. -/
theorem runSteps_call_transmit {bytes : SymAddr → Byte} {rest : List HostEvent} (h : s.accepts)
    (hv : s.symValid = true) (hbytes : ∀ a, s.symRead a = some (bytes a))
    (hw : ∀ e ∈ rest.head?, e.blocking = true) :
    runSteps (transmitSteps s.cfg) (s.setHost (.call (encode .transmit) :: rest)) =
      .next ((s.setHost rest).finishTransmit (transmitEvents s.cfg bytes)) := by
  have hstart := step_call_transmit h hv rest
  generalize hu : ((s.portWrite _).setTx _).setHost rest = u at hstart
  have hwaits : u.hostWaits := by subst hu; exact ⟨h.1, hw⟩
  have hfilled : ∀ a, u.symRead a = some (bytes a) := by subst hu; exact hbytes
  have hleft : transmitSteps s.cfg = u.stepsLeft + 1 := by
    subst hu; simp [State.stepsLeft, transmitSteps]
  have hend : u.afterTransmit bytes = (s.setHost rest).finishTransmit (transmitEvents s.cfg bytes) := by
    subst hu
    simp [State.afterTransmit, State.finishTransmit, transmitEvents_eq, State.portWrite, State.setTx]
  obtain ⟨t, hrun, hzero, -, hafter⟩ := runSteps_of_transmission hwaits hfilled le_rfl
  have hready : t.tx.phase = .ready := State.stepsLeft_eq_zero_iff.mp (by omega)
  rw [hleft, runSteps_of_step hstart, hrun, ← hend, ← hafter, State.afterTransmit_of_ready bytes hready]

/-! ### The statements -/

/-- Settles O38: the SETPIXEL writes PIX alone, so the TRANSMIT finds in SYM what the ENCODE left there. -/
theorem staleBufferIsSent : Obligations.StaleBufferIsSent := by
  rintro s i idx r g b h rfl hi
  have hencode := step_call_encode h
    [.call (encode (.setpixel idx r g b)), .call (encode .transmit)]
  have hsetpixel := step_call_setpixel (s := s.encodeFrame.markSymValid) h hi r g b
    [.call (encode .transmit)]
  have htwo := (runSteps_of_step hencode).trans (runSteps_of_step (n := 0) hsetpixel)
  have hsend := runSteps_call_transmit (rest := [])
    (s := { s.encodeFrame.markSymValid with pix := Memory.setPixel idx r g b s.pix })
    h rfl (symRead_encodeFrame s) (by simp)
  exact ⟨_, (runSteps_add (transmitSteps s.cfg) htwo).trans hsend,
    ⟨rfl, s.not_stopped_iff.mp h.1⟩, rfl, rfl, exec_setpixel_of_accepts h idx r g b⟩

/-- Settles O9: an event that does not wait is taken at once, and the word it issues is performed. -/
theorem stepRunsTheIssuedCommand : Obligations.StepRunsTheIssuedCommand := by
  refine ⟨fun s e rest w i hs hh he hb hd => step_of_legal_word hs hh he hb hd, ?_⟩
  intro s w i hs hd
  rw [s.withFetchWord_toNat, step_withCommand s w hs, issue_of_legal hd]

/-- Settles O10: a waiting host leaves the step to the transmitter, and so does an event that lets it pass; a
micro-step leaves the host's list alone. -/
theorem blockingCallsWaitForTheTransmitter : Obligations.BlockingCallsWaitForTheTransmitter := by
  refine ⟨fun s ⟨hs, hh⟩ hb => ?_, fun s rest hs hh => ?_⟩
  · have hstep := step_of_waiting hs hh hb
    exact ⟨hstep, fun t ht => microStep_host (hstep.symm.trans ht)⟩
  · have hstep : step s = microStep (s.setHost rest) := step_of_event hs hh (.inl rfl)
    exact ⟨hstep, fun t ht => microStep_host (hstep.symm.trans ht)⟩

end Sys2Proof.Machine

/-! SUPPORT. The encoding of the commands (30_encoding.md): the two round trips, the fields in arithmetic, and
what a line of the assembler's text can yield; then the statements of this family. -/

namespace Sys2Proof

/-! ### Encoding a decoded word -/

/-- The index field goes back into the 32 bits it was read from (R72). -/
theorem ofInt_idxField (w : CmdWord) : BitVec.ofInt 32 (idxField w) = w.extractLsb' 0 32 := by
  rw [idxField_eq, BitVec.ofInt_toInt]

/-- The operands of SETPIXEL, read from a word's fields, fill bits [55:0] with what stood there (R71). -/
theorem operandBits_fields (w : CmdWord) :
    (Instr.setpixel (idxField w) (redField w) (greenField w) (blueField w)).operandBits =
      reservedField w := by
  rw [Instr.operandBits, ofInt_idxField, reservedField_eq_operands]

/-- An instruction that has a word's operation and operand bits has that word (R71). -/
theorem encode_eq_of_fields {w : CmdWord} {i : Instr} (hop : i.op = opField w)
    (hbits : i.operandBits = reservedField w) : encode i = w := by
  rw [word_eq_fields w, encode, hop, hbits]

/-- The instruction that a legal word decodes to is well-formed and has that word (R74, R75). -/
theorem wf_and_encode_of_decode {w : CmdWord} {i : Instr} (h : decode w = .ok i) :
    i.wf ∧ encode i = w := by
  obtain ⟨hop, hd⟩ | ⟨hop, hr, hd⟩ | ⟨hop, hr, hd⟩ | ⟨-, -, e, hd⟩ := decode_cases w <;>
    rw [hd] at h <;> cases h
  · exact ⟨idxEncodable_idxField w, encode_eq_of_fields hop.symm (operandBits_fields w)⟩
  · exact ⟨trivial, encode_eq_of_fields hop.symm hr.symm⟩
  · exact ⟨trivial, encode_eq_of_fields hop.symm hr.symm⟩

/-! ### The fields in arithmetic -/

/-- The words of ENCODE and TRANSMIT have zeros below their operation (R71). -/
theorem toNat_eq_op_iff (w : CmdWord) (n : Byte) :
    w.toNat = n.toNat * 2 ^ 56 ↔ opField w = n ∧ reservedField w = 0 := by
  rw [opField_iff, reservedField_eq_zero_iff]
  omega

/-- The index field is the low 32 bits, read in two's complement (R72). -/
theorem idxField_eq_toNat (w : CmdWord) :
    idxField w = if w.toNat % 2 ^ 32 < 2 ^ 31 then ((w.toNat % 2 ^ 32 : Nat) : Int)
      else ((w.toNat % 2 ^ 32 : Nat) : Int) - 2 ^ 32 := by
  rw [idxField_eq, BitVec.toInt_eq_toNat_cond, toNat_field, Nat.pow_zero, Nat.div_one]
  split <;> split <;> omega

end Sys2Proof

namespace Sys2Proof.Machine

/-! ### What an operand, a line and a text can yield -/

/-- An operand in [0, 255] is the byte it reads as, and one above is an error (R78). -/
theorem byteOperand_of_natOf {cs : List Char} {n : Nat} (h : natOf cs = some n) :
    byteOperand cs = if n ≤ 255 then some (BitVec.ofNat 8 n) else none := by
  rw [byteOperand, h]

/-- An index that 32 bits can hold is the integer it reads as, and any other is an error (R78). -/
theorem idxOperand_of_intOf {cs : List Char} {n : Int} (h : intOf cs = some n) :
    idxOperand cs = if idxEncodable n then some n else none := by
  rw [idxOperand, h]

theorem idxEncodable_of_idxOperand {cs : List Char} {n : Int} (h : idxOperand cs = some n) :
    idxEncodable n := by
  unfold idxOperand at h
  split at h
  · obtain ⟨hn, rfl⟩ := Option.ite_none_right_eq_some.mp h |>.imp id Option.some.inj
    exact hn
  · cases h

/-- A mnemonic and its operands stand for well-formed instructions only: the one operand that could break
this is the index of SETPIXEL or CLRPIXEL. -/
theorem wf_of_instrsOf {m : Mnemonic} {ops : List (List Char)} {is : List Instr}
    (h : instrsOf m ops = some is) : ∀ i ∈ is, i.wf := by
  unfold instrsOf at h
  split at h
  case h_1 =>
    split at h
    case h_1 hidx _ _ _ =>
      obtain rfl := Option.some.inj h
      exact List.forall_mem_singleton.mpr (idxEncodable_of_idxOperand hidx)
    case h_2 => cases h
  case h_4 =>
    obtain ⟨idx, hidx, rfl⟩ := Option.map_eq_some_iff.mp h
    exact List.forall_mem_singleton.mpr (idxEncodable_of_idxOperand hidx)
  case h_2 | h_3 | h_5 =>
    obtain rfl := Option.some.inj h
    simp [showFrame, Instr.wf]
  case h_6 => cases h

/-- A line yields well-formed instructions only (R78). -/
theorem wf_of_instrsOfLine {line : List Char} {is : List Instr} (h : instrsOfLine line = some is) :
    ∀ i ∈ is, i.wf := by
  unfold instrsOfLine at h
  dsimp only at h
  split at h
  · obtain rfl := Option.some.inj h
    simp
  · split at h
    · exact wf_of_instrsOf h
    · cases h

theorem assembleLine_of_instrsOfLine {line : List Char} {is : List Instr}
    (h : instrsOfLine line = some is) : assembleLine line = some (is.map encode) := by
  rw [assembleLine, h, Option.map_some]

/-- A word of an accepted text is the word of an instruction of one of its lines. -/
theorem exists_instr_of_mem_assembleLines {lines : List (List Char)} {ws : List CmdWord} {w : CmdWord}
    (h : assembleLines lines = some ws) (hw : w ∈ ws) :
    ∃ line ∈ lines, ∃ is i, instrsOfLine line = some is ∧ i ∈ is ∧ encode i = w := by
  induction lines generalizing ws with
  | nil =>
    obtain rfl := Option.some.inj h
    cases hw
  | cons line lines ih =>
    unfold assembleLines at h
    split at h
    case h_1 ws₁ ws₂ hline hlines =>
      obtain rfl := Option.some.inj h
      obtain hw | hw := List.mem_append.mp hw
      · obtain ⟨is, his, rfl⟩ := Option.map_eq_some_iff.mp hline
        obtain ⟨i, hi, rfl⟩ := List.mem_map.mp hw
        exact ⟨line, List.mem_cons_self, is, i, his, hi, rfl⟩
      · obtain ⟨line', hmem, hrest⟩ := ih hlines hw
        exact ⟨line', List.mem_cons_of_mem _ hmem, hrest⟩
    case h_2 => cases h

/-! ### The text of an instruction -/

/-- An operand begins no comment. -/
theorem Plain.semicolon_not_mem {t : List Char} (h : Plain t) : ';' ∉ t := fun hc => (h.2 _ hc).2.2 rfl

/-- A line that is a mnemonic and one operand. -/
theorem instrsOfLine_of_one {name a : List Char} {m : Mnemonic} (hm : mnemonicOf name = some m)
    (hname : Plain name) (ha : Plain a) : instrsOfLine (name ++ ' ' :: a) = instrsOf m [a] := by
  have htrim : trim (name ++ ' ' :: a) = name ++ ' ' :: a := by
    simpa using trim_between hname [' '] ha
  rw [instrsOfLine_of_parts hm hname (fun c hc => (ha.2 c hc).2.2) htrim (trim_plain ha),
    operandsOf_one ha]

/-- A line that is a mnemonic and four operands, a comma and a space between them. -/
theorem instrsOfLine_of_four {name a b c d : List Char} {m : Mnemonic} (hm : mnemonicOf name = some m)
    (hname : Plain name) (ha : Plain a) (hb : Plain b) (hc : Plain c) (hd : Plain d) :
    instrsOfLine (name ++ ' ' :: (a ++ ',' :: ' ' :: (b ++ ',' :: ' ' :: (c ++ ',' :: ' ' :: d)))) =
      instrsOf m [a, b, c, d] := by
  rw [← operandsOf_four ha hb hc hd]
  have hcomment : ';' ∉ a ++ ',' :: ' ' :: (b ++ ',' :: ' ' :: (c ++ ',' :: ' ' :: d)) := by
    simp [ha.semicolon_not_mem, hb.semicolon_not_mem, hc.semicolon_not_mem, hd.semicolon_not_mem]
  apply instrsOfLine_of_parts hm hname (fun x hx => ne_of_mem_of_not_mem hx hcomment)
  · simpa using trim_between hname
      (' ' :: (a ++ ',' :: ' ' :: (b ++ ',' :: ' ' :: (c ++ [',', ' '])))) hd
  · simpa using trim_between ha (',' :: ' ' :: (b ++ ',' :: ' ' :: (c ++ [',', ' ']))) hd

/-- The line of CLRPIXEL stands for SETPIXEL with the colour 0, 0, 0 (R79). -/
theorem instrsOfLine_clrPixelText {idx : Int} (h : idxEncodable idx) :
    instrsOfLine (clrPixelText idx) = some [clrPixel idx] := by
  calc instrsOfLine (clrPixelText idx)
    _ = instrsOf .clrpixel [intText idx] := instrsOfLine_of_one rfl plain_clrpixel (plain_intText idx)
    _ = some [clrPixel idx] := by rw [instrsOf, idxOperand_intText h, Option.map_some]

/-- The line of SETPIXEL, its operands in decimal, stands for the instruction (R78). -/
theorem instrsOfLine_setpixelText {idx : Int} (r g b : Byte) (h : idxEncodable idx) :
    instrsOfLine (instrText (.setpixel idx r g b)) = some [.setpixel idx r g b] := by
  have hline := instrsOfLine_of_four (m := .setpixel) rfl plain_setpixel (plain_intText idx)
    (plain_natText r.toNat) (plain_natText g.toNat) (plain_natText b.toNat)
  calc instrsOfLine (instrText (.setpixel idx r g b))
    _ = instrsOf .setpixel [intText idx, natText r.toNat, natText g.toNat, natText b.toNat] := by
      simpa [instrText] using hline
    _ = some [.setpixel idx r g b] := by
      simp only [instrsOf, idxOperand_intText h, byteOperand_natText]

/-- The line of every well-formed instruction stands for that instruction (R78). -/
theorem instrsOfLine_instrText {i : Instr} (h : i.wf) : instrsOfLine (instrText i) = some [i] := by
  cases i with
  | setpixel idx r g b => exact instrsOfLine_setpixelText r g b h
  | encode => decide
  | transmit => decide

/-! ### The statements -/

/-- Settles O7, by the fields of an encoded instruction. -/
theorem decodeAfterEncode : Obligations.DecodeAfterEncode := fun _ h => decode_encode h

/-- Settles O8: a word is its operation and its operand bits, and decoding keeps both. -/
theorem encodeAfterDecode : Obligations.EncodeAfterDecode := fun _ _ h => wf_and_encode_of_decode h

/-- Settles O6, along the cases of decoding, with each field as a quotient and a remainder of the word. -/
theorem decodeReadsTheFields : Obligations.DecodeReadsTheFields := by
  intro w
  have hset : w.toNat / 2 ^ 56 = 1 ↔ opField w = 0x01 := (opField_iff w 0x01).symm
  have henc : w.toNat = 2 * 2 ^ 56 ↔ opField w = 0x02 ∧ reservedField w = 0 := toNat_eq_op_iff w 0x02
  have htra : w.toNat = 3 * 2 ^ 56 ↔ opField w = 0x03 ∧ reservedField w = 0 := toNat_eq_op_iff w 0x03
  simp only [ne_eq, hset, henc, htra]
  refine ⟨fun hop => ?_, fun ⟨hop, hr⟩ => ?_, fun ⟨hop, hr⟩ => ?_, fun h1 h2 h3 => ?_⟩
  · exact ⟨idxField w, redField w, greenField w, blueField w, if_pos hop, toNat_field w 48 8,
      toNat_field w 40 8, toNat_field w 32 8, idxField_eq_toNat w⟩
  · simp [decode, decodePlain, hop, hr]
  · simp [decode, decodePlain, hop, hr]
  · obtain ⟨hop, -⟩ | ⟨hop, hr, -⟩ | ⟨hop, hr, -⟩ | ⟨-, -, herror⟩ := decode_cases w
    · exact absurd hop h1
    · exact absurd ⟨hop, hr⟩ h2
    · exact absurd ⟨hop, hr⟩ h3
    · exact herror

/-- Settles O45: the operands by their ranges, a line by its mnemonic, and a text line by line. -/
theorem assemblerYieldsLegalWords : Obligations.AssemblerYieldsLegalWords := by
  refine ⟨fun cs n hn => ?_, fun cs n hn => ?_, fun line is h => ?_, fun text ws h w hw => ?_⟩
  · rw [byteOperand_of_natOf hn]
    refine ⟨fun hle => ⟨BitVec.ofNat 8 n, if_pos hle, ?_⟩, fun hgt => if_neg (by omega)⟩
    rw [BitVec.toNat_ofNat, Nat.mod_eq_of_lt (by omega)]
  · rw [idxOperand_of_intOf hn]
    exact ⟨fun hlow hhigh => if_pos ⟨by omega, by omega⟩, fun hout => if_neg (by omega)⟩
  · exact ⟨wf_of_instrsOfLine h, assembleLine_of_instrsOfLine h⟩
  · obtain ⟨line, hline, is, i, his, hi, rfl⟩ := exists_instr_of_mem_assembleLines h hw
    have hwf : i.wf := wf_of_instrsOfLine his i hi
    exact ⟨line, hline, is, i, his, hi, hwf, rfl, decode_encode hwf⟩

/-- Settles O51: a line's words are those of the instructions it stands for. -/
theorem textOfAnInstructionAssembles : Obligations.TextOfAnInstructionAssembles :=
  ⟨fun _ h => assembleLine_of_instrsOfLine (instrsOfLine_instrText h),
    fun _ h => assembleLine_of_instrsOfLine (instrsOfLine_clrPixelText h)⟩

/-- Settles O5, word by word. -/
theorem specWordsDecode : Obligations.SpecWordsDecode := by
  unfold Obligations.SpecWordsDecode
  decide

/-- Settles O44, text by text. -/
theorem assemblerTexts : Obligations.AssemblerTexts := by
  unfold Obligations.AssemblerTexts
  decide

end Sys2Proof.Machine

/-! SUPPORT. The pixel store (40_pixel_store.md): a SETPIXEL by its index and by the state it finds, and the bytes
of PIX after it; then the statements of this family. -/

namespace Sys2Proof.Machine

variable {s t : State}

/-! ### SETPIXEL, by the state it finds and by its index -/

/-- An index is out of range, on one side or the other, or it names a pixel (R100). -/
theorem index_outOfRange_or_pixel (idx : Int) : (idx < 0 ∨ 8 ≤ idx) ∨ ∃ p : Fin 8, idx = p.val := by
  cases hp : pixelOf idx with
  | none => have := pixelOf_eq_none_iff.mp hp; omega
  | some p => exact .inr ⟨p, pixelOf_eq_some_iff.mp hp⟩

/-- In a busy block a SETPIXEL takes the BUSY fault, whatever its index (R203). -/
theorem exec_setpixel_of_busy (hs : s.stopped = false) (hb : s.busy = true) (idx : Int) (r g b : Byte) :
    exec (.setpixel idx r g b) s = .next (s.raiseFault .busy (encode (.setpixel idx r g b))) := by
  rw [exec, execSetpixel, accept_of_busy hs hb]

theorem exec_setpixel_of_outOfRange (h : s.accepts) {idx : Int} (hi : idx < 0 ∨ 8 ≤ idx)
    (r g b : Byte) : exec (.setpixel idx r g b) s = .next s := by
  have hp : pixelOf idx = none := pixelOf_eq_none_iff.mpr (by omega)
  rw [exec_setpixel_of_accepts h, Memory.setPixel, hp]

theorem exec_setpixel_of_pixel (h : s.accepts) {idx : Int} {p : Fin 8} (hi : idx = p.val)
    (r g b : Byte) : exec (.setpixel idx r g b) s = .next (s.writePixel p r g b) := by
  rw [exec_setpixel_of_accepts h, Memory.setPixel, pixelOf_eq_some_iff.mpr hi]
  rfl

/-! ### The bytes of PIX after a pixel write -/

/-- A pixel write, byte by byte: green, red and blue from `3p` on, and nothing else (R24, R100). -/
theorem State.pixRead_writePixel_of_addr (s : State) (p : Fin 8) (r g b : Byte) (a : PixAddr) :
    (s.writePixel p r g b).pixRead a =
      if a.val = 3 * p.val then g
      else if a.val = 3 * p.val + 1 then r
      else if a.val = 3 * p.val + 2 then b
      else s.pixRead a := by
  obtain ⟨q, c, rfl⟩ := exists_pixAddr a
  rw [State.pixRead_writePixel, pixAddr_val]
  by_cases hq : q = p
  · subst hq
    have hc : c = 0 ∨ c = 1 ∨ c = 2 := by omega
    rcases hc with rfl | rfl | rfl <;> simp
  · rw [if_neg hq, if_neg (by omega), if_neg (by omega), if_neg (by omega)]

/-- A byte that is none of the pixel's three reads as before. -/
theorem State.pixRead_writePixel_of_ne {p : Fin 8} {a : PixAddr} (h : ∀ c, a ≠ pixAddr p c)
    (s : State) (r g b : Byte) : (s.writePixel p r g b).pixRead a = s.pixRead a := by
  obtain ⟨q, c, rfl⟩ := exists_pixAddr a
  have hq : q ≠ p := fun hq => h c (by rw [hq])
  rw [State.pixRead_writePixel, if_neg hq]

/-- In a canonical PIX the later of two writes of one pixel leaves nothing of the earlier (R103): the two
stores read alike, and a canonical store is determined by what it reads as. -/
theorem State.writePixel_writePixel (p : Fin 8) (r g b r' g' b' : Byte)
    (h : Memory.wf 24 pixBlank s.pix) :
    (s.writePixel p r g b).writePixel p r' g' b' = s.writePixel p r' g' b' := by
  have hpix : ((s.writePixel p r g b).writePixel p r' g' b').pix = (s.writePixel p r' g' b').pix := by
    refine State.pix_ext (State.writePixel_wf p r' g' b' h)
      (State.writePixel_wf p r' g' b' (State.writePixel_wf p r g b h)) fun a => ?_
    obtain ⟨q, c, rfl⟩ := exists_pixAddr a
    simp only [State.pixRead_writePixel]
    split <;> rfl
  rw [State.writePixel_eq (s.writePixel p r g b), hpix]
  rfl

/-! ### The statements -/

/-- Settles O16: the BUSY fault, an index out of range, and a pixel write read byte by byte. -/
theorem setpixelWritesOnePixel : Obligations.SetpixelWritesOnePixel := by
  intro idx r g b s hs
  refine ⟨fun hb => exec_setpixel_of_busy hs hb idx r g b,
    fun hb hi => exec_setpixel_of_outOfRange ⟨hs, hb⟩ hi r g b, fun hb p hp => ?_⟩
  exact ⟨s.writePixel p r g b, exec_setpixel_of_pixel ⟨hs, hb⟩ hp r g b, s.writePixel_eq p r g b,
    s.pixRead_writePixel_of_addr p r g b⟩

/-- Settles O18: out of range both leave the state as it is; in range the later write covers the earlier. -/
theorem laterSetpixelReplacesTheEarlier : Obligations.LaterSetpixelReplacesTheEarlier := by
  intro idx r g b r' g' b' s t u hwf h hfirst hlater
  obtain hi | ⟨p, hp⟩ := index_outOfRange_or_pixel idx
  · rw [exec_setpixel_of_outOfRange h hi] at hfirst
    cases hfirst
    exact hlater
  · rw [exec_setpixel_of_pixel h hp] at hfirst
    cases hfirst
    have haccepts : (s.writePixel p r g b).accepts := h
    rw [exec_setpixel_of_pixel haccepts hp, State.writePixel_writePixel p r g b r' g' b' hwf] at hlater
    rw [exec_setpixel_of_pixel h hp, hlater]

/-- Settles O19, along the three things a SETPIXEL can do: a fault, nothing, or a pixel write. -/
theorem setpixelFrame : Obligations.SetpixelFrame := by
  intro idx r g b s t h
  obtain ⟨-, ⟨hb, rfl⟩ | ⟨-, -, rfl⟩ | ⟨hb, p, hp, rfl⟩⟩ := execSetpixel_cases h
  · exact ⟨rfl, fun hready => by simp [hb] at hready, fun _ => rfl, fun _ _ => rfl⟩
  · exact ⟨rfl, fun _ => rfl, fun _ => rfl, fun _ _ => rfl⟩
  · exact ⟨rfl, fun _ => rfl, fun hbusy => by simp [hb] at hbusy,
      fun a ha => State.pixRead_writePixel_of_ne (fun c => ha p c hp) s r g b⟩

/-- Settles O17: an index out of range names no pixel. -/
theorem setpixelOutOfRangeChangesNothing : Obligations.SetpixelOutOfRangeChangesNothing :=
  fun _ r g b _ h hi => exec_setpixel_of_outOfRange h hi r g b

end Sys2Proof.Machine

/-! SUPPORT. The frame encoder (41_frame_encoder.md): what ENCODE answers, the bytes of SYM after it, the loops of
R110, and the counts by position; then the statements of this family. -/

namespace Sys2Proof.Machine

variable {s t : State}

/-! ### What ENCODE answers -/

/-- In a busy block ENCODE takes the BUSY fault (R203). -/
theorem exec_encode_of_busy (hs : s.stopped = false) (hb : s.busy = true) :
    exec .encode s = .next (s.raiseFault .busy (encode .encode)) := by
  rw [exec, execEncode, accept_of_busy hs hb]

/-- A block that accepts has one answer to ENCODE. -/
theorem eq_of_exec_encode (h : s.accepts) (he : exec .encode s = .next t) :
    t = s.encodeFrame.markSymValid := by
  rw [exec_encode_of_accepts h] at he
  cases he
  rfl

/-! ### The bytes of SYM by protocol bit and slot -/

/-- The protocol bit that is bit `k` (0 the most significant) of the byte `b` of PIX: PIX goes out byte by byte
(R111, R112). -/
def byteBit (b : PixAddr) (k : Fin 8) : Fin 192 := ⟨8 * b.val + k.val, by omega⟩

@[simp] theorem byteBit_val (b : PixAddr) (k : Fin 8) : (byteBit b k).val = 8 * b.val + k.val := rfl

theorem bitNumber_eq_byteBit (p : Fin 8) (c : Fin 3) (k : Fin 8) :
    bitNumber p c k = byteBit (pixAddr p c) k := by
  simp only [Fin.ext_iff, bitNumber_val, byteBit_val, pixAddr_val]
  omega

/-- R110's three writes of a symbol agree with R113's closed form. -/
theorem State.frameByte_slotAddr (s : State) (b : PixAddr) (k : Fin 8) (j : Fin 3) :
    s.frameByte (slotAddr (byteBit b k) j) =
      if j = 1 then level s.cfg (channelBit (s.pixRead b) k) else s.cfg.codeIdle := by
  have hslot : (slotAddr (byteBit b k) j).val % 3 = 1 ↔ j = 1 := by
    simp only [slotAddr_val, Fin.ext_iff, Fin.val_one]
    omega
  have hbyte : 3 * ((slotAddr (byteBit b k) j).val / 72) + (slotAddr (byteBit b k) j).val % 72 / 24 =
      b.val := by
    simp only [slotAddr_val, byteBit_val]
    omega
  have hbit : (slotAddr (byteBit b k) j).val % 24 / 3 = k.val := by
    simp only [slotAddr_val, byteBit_val]
    omega
  simp only [State.frameByte, frameByteOf, hslot, hbyte, hbit, channelBit]

/-- The same for bit `k` of channel `c` of pixel `p`. -/
theorem State.frameByte_bitNumber (s : State) (p : Fin 8) (c : Fin 3) (k : Fin 8) (j : Fin 3) :
    s.frameByte (slotAddr (bitNumber p c k) j) =
      if j = 1 then level s.cfg (channelBit (s.pixRead (pixAddr p c)) k) else s.cfg.codeIdle := by
  rw [bitNumber_eq_byteBit, State.frameByte_slotAddr]

/-- The encoding uses PIX and the three codes only (R115). -/
theorem State.frameByte_congr (hpix : ∀ a, s.pixRead a = t.pixRead a)
    (hidle : s.cfg.codeIdle = t.cfg.codeIdle) (hlow : s.cfg.codeLow = t.cfg.codeLow)
    (hhigh : s.cfg.codeHigh = t.cfg.codeHigh) (a : SymAddr) : s.frameByte a = t.frameByte a := by
  simp only [State.frameByte, frameByteOf, level, hpix, hidle, hlow, hhigh]

/-- The cells ENCODE leaves are canonical, so they are fixed by the bytes they encode. -/
theorem State.frameCells_congr (h : ∀ a, s.frameByte a = t.frameByte a) :
    s.frameCells = t.frameCells :=
  State.sym_ext (s := t.encodeFrame) (t := s.encodeFrame) (frameCells_wf t) (frameCells_wf s)
    fun a => by rw [symRead_encodeFrame, symRead_encodeFrame, h]

theorem symRead_of_exec_encode (h : s.accepts) (he : exec .encode s = .next t) (a : SymAddr) :
    t.symRead a = some (s.frameByte a) := by
  rw [eq_of_exec_encode h he]
  exact symRead_encodeFrame s a

/-! ### The loops of R110 -/

/-- From `s` to `t` the bytes of SYM from `lo` up to `hi` get what ENCODE leaves there, a canonical SYM stays
canonical, and nothing else changes. -/
structure State.FillsSym (lo hi : Nat) (s t : State) : Prop where
  frame : t = s.setSym t.sym
  wf : Memory.wf 576 symBlank s.sym → Memory.wf 576 symBlank t.sym
  reads : ∀ a : SymAddr, t.symRead a =
    if lo ≤ a.val ∧ a.val < hi then some (s.frameByte a) else s.symRead a

theorem State.FillsSym.refl (lo : Nat) (s : State) : s.FillsSym lo lo s :=
  ⟨rfl, id, fun a => by rw [if_neg (by omega)]⟩

/-- A stretch and the next one make one stretch: filling SYM leaves alone what the encoding reads. -/
theorem State.FillsSym.trans {lo mid hi : Nat} {u : State} (hst : s.FillsSym lo mid t)
    (htu : t.FillsSym mid hi u) (hlo : lo ≤ mid) (hhi : mid ≤ hi) : s.FillsSym lo hi u where
  frame := by rw [htu.frame, hst.frame]; rfl
  wf h := htu.wf (hst.wf h)
  reads a := by
    have hbyte : t.frameByte a = s.frameByte a := by rw [hst.frame]; rfl
    rw [htu.reads, hst.reads, hbyte]
    split_ifs <;> first | rfl | omega

/-- One byte write of R110. -/
theorem State.fillsSym_symWrite (s : State) (a : SymAddr) {v : Byte} (hv : s.frameByte a = v) :
    s.FillsSym a.val (a.val + 1) (s.symWrite a v) where
  frame := rfl
  wf h := Memory.wf_writeByte v h a.isLt
  reads b := by
    by_cases hb : b = a
    · subst hb
      rw [State.symRead_symWrite_self, if_pos (by omega), hv]
    · rw [State.symRead_symWrite_of_ne s v hb, if_neg fun h => hb (Fin.ext (by omega))]

/-- A loop whose round `k` fills the `k`-th stretch of `width` bytes fills them all. -/
theorem State.fillsSym_foldl {n : Nat} (body : Fin n → State → State) (base width : Nat)
    (hbody : ∀ k s, State.FillsSym (base + width * k.val) (base + width * (k.val + 1)) s (body k s))
    (s : State) :
    s.FillsSym base (base + width * n) ((List.finRange n).foldl (fun s k => body k s) s) := by
  induction n with
  | zero => exact State.FillsSym.refl base s
  | succ n ih =>
    rw [List.finRange_succ_last, List.foldl_append, List.foldl_map]
    exact (ih (fun k => body k.castSucc) fun k => hbody k.castSucc).trans (hbody (Fin.last n) _)
      (Nat.le_add_right _ _) (Nat.add_le_add_left (Nat.mul_le_mul_left _ (Nat.le_succ n)) _)

/-- The body of R110's loop fills the three slots of its symbol. -/
theorem State.fillsSym_writeSymbol (p : Fin 8) (c : Fin 3) (k : Fin 8) (s : State) :
    s.FillsSym (72 * p.val + 24 * c.val + 3 * k.val) (72 * p.val + 24 * c.val + 3 * (k.val + 1))
      (s.writeSymbol p c k) := by
  have hslot (j : Fin 3) :
      (slotAddr (bitNumber p c k) j).val = 72 * p.val + 24 * c.val + 3 * k.val + j.val := by
    simp only [slotAddr_val, bitNumber_val]
    omega
  have hwrite (j : Fin 3) (u : State) {v : Byte}
      (hv : (if j = 1 then level u.cfg (channelBit (u.pixRead (pixAddr p c)) k)
        else u.cfg.codeIdle) = v) :
      u.FillsSym (72 * p.val + 24 * c.val + 3 * k.val + j.val)
        (72 * p.val + 24 * c.val + 3 * k.val + j.val + 1)
        (u.symWrite (slotAddr (bitNumber p c k) j) v) :=
    hslot j ▸ u.fillsSym_symWrite (slotAddr (bitNumber p c k) j)
      ((u.frameByte_bitNumber p c k j).trans hv)
  exact ((hwrite 0 s rfl).trans (hwrite 1 _ rfl) (Nat.le_succ _) (Nat.le_succ _)).trans
    (hwrite 2 _ rfl) (by omega) (Nat.le_succ _)

theorem State.fillsSym_loopBits (p : Fin 8) (c : Fin 3) (s : State) :
    s.FillsSym (72 * p.val + 24 * c.val) (72 * p.val + 24 * (c.val + 1)) (s.loopBits p c) :=
  State.fillsSym_foldl (fun k s => s.writeSymbol p c k) (72 * p.val + 24 * c.val) 3
    (State.fillsSym_writeSymbol p c) s

theorem State.fillsSym_loopChannels (p : Fin 8) (s : State) :
    s.FillsSym (72 * p.val) (72 * (p.val + 1)) (s.loopChannels p) :=
  State.fillsSym_foldl (fun c s => s.loopBits p c) (72 * p.val) 24 (State.fillsSym_loopBits p) s

theorem State.fillsSym_encodeLoop (s : State) : s.FillsSym 0 576 s.encodeLoop :=
  State.fillsSym_foldl (fun p s => s.loopChannels p) 0 72
    (by simpa only [Nat.zero_add] using State.fillsSym_loopChannels) s

/-- R110's loops leave what ENCODE computes at once. -/
theorem State.encodeLoop_eq_encodeFrame (h : Memory.wf 576 symBlank s.sym) :
    s.encodeLoop = s.encodeFrame := by
  have hfill := s.fillsSym_encodeLoop
  have hsym : s.encodeLoop.sym = s.encodeFrame.sym :=
    State.sym_ext (frameCells_wf s) (hfill.wf h) fun a => by
      rw [hfill.reads, symRead_encodeFrame, if_pos ⟨Nat.zero_le _, a.isLt⟩]
  rw [hfill.frame, hsym]
  rfl

/-! ### Counting by position -/

/-- Counting positions is adding up ones. -/
theorem countP_finRange_eq_sum {n : Nat} (p : Fin n → Bool) :
    (List.finRange n).countP p = ∑ a, if p a then 1 else 0 := by
  rw [Fin.sum_univ_def]
  induction List.finRange n with
  | nil => rfl
  | cons a l ih => rw [List.countP_cons, ih, List.map_cons, List.sum_cons, Nat.add_comm]

/-- The positions of SYM are the slots of the bits of the bytes of PIX (R113). -/
theorem sum_symAddr (f : SymAddr → Nat) :
    ∑ a, f a = ∑ b : PixAddr, ∑ k : Fin 8, ∑ j : Fin 3, f (slotAddr (byteBit b k) j) := by
  have hbits (g : Fin 192 → Nat) : ∑ m, g m = ∑ b : PixAddr, ∑ k : Fin 8, g (byteBit b k) := by
    rw [← Equiv.sum_comp (finProdFinEquiv (m := 24) (n := 8)) g, Fintype.sum_prod_type]
    simp only [finProdFinEquiv, byteBit, Equiv.coe_fn_mk, Nat.add_comm]
  rw [← hbits fun m => ∑ j : Fin 3, f (slotAddr m j),
    ← Equiv.sum_comp (finProdFinEquiv (m := 192) (n := 3)) f, Fintype.sum_prod_type]
  simp only [finProdFinEquiv, slotAddr, Equiv.coe_fn_mk, Nat.add_comm]

/-- Positions of SYM, counted byte by byte of PIX, bit by bit and slot by slot. -/
theorem countP_symAddr (q : SymAddr → Bool) :
    (List.finRange 576).countP q =
      ∑ b : PixAddr, ∑ k : Fin 8, ∑ j : Fin 3, if q (slotAddr (byteBit b k) j) then 1 else 0 := by
  rw [countP_finRange_eq_sum, sum_symAddr fun a => if q a then 1 else 0]

/-- A byte's 1 bits, in the order in which they are encoded. -/
theorem popcount_eq_sum (v : Byte) :
    Byte.popcount v = ∑ k : Fin 8, if channelBit v k = true then 1 else 0 := by
  rw [Byte.popcount, ← List.map_coe_finRange_eq_range, List.countP_map, countP_finRange_eq_sum,
    ← Equiv.sum_comp Fin.revPerm]
  refine Finset.sum_congr rfl fun k _ => ?_
  have hrev : (Fin.revPerm k).val = 7 - k.val := by
    simp only [Fin.revPerm_apply, Fin.val_rev]
    omega
  rw [channelBit, ← hrev]
  rfl

/-- A bit can be read off its level, because the two codes differ (R31). -/
theorem level_inj {cfg : Config} {x y : Bool} : level cfg x = level cfg y ↔ x = y := by
  have hne : cfg.codeLow ≠ cfg.codeHigh := fun h => by
    have := cfg.lowBelowHigh
    rw [h] at this
    exact absurd this (BitVec.lt_irrefl _)
  cases x <;> cases y <;> simp [level, hne, hne.symm]

/-- As many slot-1 positions hold the level of `x` as PIX has bits `x` (R117). -/
theorem countP_slotOne {x : Bool} {code : Byte} (h : ∀ a, t.symRead a = some (s.frameByte a))
    (hcode : level s.cfg x = code) :
    ((List.finRange 576).countP fun a => a.val % 3 = 1 ∧ t.symRead a = some code) =
      ∑ b : PixAddr, ∑ k : Fin 8, if channelBit (s.pixRead b) k = x then 1 else 0 := by
  subst hcode
  rw [countP_symAddr]
  refine Finset.sum_congr rfl fun b _ => Finset.sum_congr rfl fun k _ => ?_
  rw [Fin.sum_univ_three]
  simp [h, State.frameByte_slotAddr, level_inj]

/-- The 384 bytes of slots 0 and 2 hold CODE_IDLE (R117). -/
theorem countP_framing (h : ∀ a, t.symRead a = some (s.frameByte a)) :
    ((List.finRange 576).countP fun a => a.val % 3 ≠ 1 ∧ t.symRead a = some s.cfg.codeIdle) = 384 := by
  rw [countP_symAddr]
  simp only [Fin.sum_univ_three]
  simp [h, State.frameByte_slotAddr]

/-- The sum of the popcounts is the number of 1 bits of PIX. -/
theorem sum_popcount_pix (s : State) :
    ((List.finRange 24).map fun a => Byte.popcount (s.pixRead a)).sum =
      ∑ b : PixAddr, ∑ k : Fin 8, if channelBit (s.pixRead b) k = true then 1 else 0 := by
  rw [← Fin.sum_univ_def]
  exact Finset.sum_congr rfl fun b _ => popcount_eq_sum (s.pixRead b)

/-- Every bit of PIX is 0 or 1. -/
theorem sum_bits (s : State) :
    (∑ b : PixAddr, ∑ k : Fin 8, if channelBit (s.pixRead b) k = false then 1 else 0) +
      (∑ b : PixAddr, ∑ k : Fin 8, if channelBit (s.pixRead b) k = true then 1 else 0) = 192 := by
  have hbit (x : Bool) : (if x = false then 1 else 0) + (if x = true then 1 else 0) = 1 := by
    cases x <;> rfl
  simp only [← Finset.sum_add_distrib, hbit, Finset.sum_const, Finset.card_univ, Fintype.card_fin]
  rfl

/-! ### The statements -/

/-- Settles O21: the loops of R110 fill SYM stretch by stretch, and a canonical SYM is fixed by its bytes. -/
theorem encodeIsTheLoopOfTheRule : Obligations.EncodeIsTheLoopOfTheRule := by
  intro s hs hwf
  split
  · next hb => exact exec_encode_of_busy hs hb
  · next hb =>
    rw [exec_encode_of_accepts ⟨hs, by simpa using hb⟩, State.encodeLoop_eq_encodeFrame hwf]
    rfl

/-- Settles O22: the index formula names slot `j` of a protocol bit, and the closed form is what the cells of the
frame hold. -/
theorem encodeFollowsTheIndexFormula : Obligations.EncodeFollowsTheIndexFormula := by
  intro s h
  have he := exec_encode_of_accepts h
  refine ⟨_, he, rfl, fun p c k j a ha => ?_, symRead_of_exec_encode h he⟩
  have haddr : a = slotAddr (bitNumber p c k) j := by
    simp only [Fin.ext_iff, slotAddr_val, bitNumber_val]
    omega
  refine ⟨by omega, by omega, by omega, by omega, ?_⟩
  rw [symRead_of_exec_encode h he, haddr, State.frameByte_bitNumber]
  rfl

/-- Settles O23: both states encode the same bytes, and canonical cells are fixed by their bytes. -/
theorem encodeDependsOnPixAndCodesOnly : Obligations.EncodeDependsOnPixAndCodesOnly := by
  intro s s' t t' h h' hpix hidle hlow hhigh he he'
  rw [eq_of_exec_encode h he, eq_of_exec_encode h' he']
  exact State.frameCells_congr (State.frameByte_congr hpix hidle hlow hhigh)

/-- Settles O24: the first ENCODE leaves PIX and CFG alone, so the second writes the same cells. -/
theorem encodeTwiceIsEncodeOnce : Obligations.EncodeTwiceIsEncodeOnce := by
  intro s t h he
  obtain rfl := eq_of_exec_encode h he
  exact exec_encode_of_accepts (s := s.encodeFrame.markSymValid) h

/-- Settles O25: every bit of 0xFF is 1, and every bit of 0x00 is 0. -/
theorem saturatedChannelsAreUniform : Obligations.SaturatedChannelsAreUniform := by
  intro s t p c k h he
  have hones : ∀ k, channelBit 0xFF k = true := by decide
  have hzeros : ∀ k, channelBit 0x00 k = false := by decide
  rw [symRead_of_exec_encode h he, State.frameByte_bitNumber, if_pos rfl]
  exact ⟨fun hv => by rw [hv, hones]; rfl, fun hv => by rw [hv, hzeros]; rfl⟩

/-- Settles O26: positions are counted bit by bit and slot by slot, and CODE_HIGH and CODE_LOW are the levels of 1
and of 0. -/
theorem codeCountsAfterEncode : Obligations.CodeCountsAfterEncode := by
  intro s t h he ones
  have hreads := symRead_of_exec_encode h he
  have hones : ones = _ := sum_popcount_pix s
  have hhigh := countP_slotOne (x := true) (code := s.cfg.codeHigh) hreads rfl
  have hlow := countP_slotOne (x := false) (code := s.cfg.codeLow) hreads rfl
  refine ⟨countP_framing hreads, hhigh.trans hones.symm, ?_⟩
  rw [hlow, hones]
  exact sum_bits s

/-- Settles O27, along the two things an ENCODE can do: the BUSY fault, or the frame. -/
theorem encodeFrame : Obligations.EncodeFrame := by
  intro s t h
  obtain ⟨-, ⟨hb, rfl⟩ | ⟨hb, rfl⟩⟩ := execEncode_cases h
  · exact ⟨rfl, fun hready => by simp [hb] at hready, fun _ => ⟨rfl, rfl⟩, fun _ => rfl⟩
  · exact ⟨rfl, fun _ => rfl, fun hbusy => by simp [hb] at hbusy, fun _ => rfl⟩

end Sys2Proof.Machine

/-! SUPPORT. The transmitter (42_transmitter.md): the step of a busy block whose host waits, the one micro-step
that is enabled, a whole TRANSMIT with every moment of it, and why no unstopped block gets stuck; then the
statements of this family. -/

namespace Sys2Proof.Machine

variable {s t : State}

/-! ### The step in which no event comes -/

/-- While a transmission is under way and the host waits, the step is the transmitter's (R135, R160). -/
theorem step_eq_microStep (hw : s.hostWaits) (hp : s.tx.phase ≠ .ready) : step s = microStep s :=
  step_of_waiting hw.1 hw.2 (s.busy_iff.mpr hp)

/-- With no event to come the step is the transmitter's, busy or not (R217, R232). -/
theorem step_of_no_event (hs : s.stopped = false) (hh : s.host = []) : step s = microStep s := by
  simp [step, turn, hs, hh]

/-- At READY a micro-step leaves the block as it is (R217). -/
theorem microStep_of_ready (hp : s.tx.phase = .ready) : microStep s = .next s := by
  simp [microStep, hp]

/-- A symbol byte that nothing wrote cannot go out (log 9). -/
theorem microStep_of_unwritten (hp : s.tx.phase = .stream) (hspin : s.tx.spin = 0)
    (hi : s.tx.idx.val < 576) (hb : s.symRead ⟨s.tx.idx.val, hi⟩ = none) :
    microStep s = .fault .unwrittenSymbol := by
  simp [microStep, State.symbolByteStep, hp, hspin, hi, hb]

/-! ### Which micro-step is enabled -/

/-- The micro-step that the phase, the spins left and the index ask for, if any (R135). -/
def enabledMicroStep (tx : Tx) : Option MicroStep :=
  match tx.phase with
  | .ready => none
  | .reset => some (if 0 < tx.spin then .hold else .endReset)
  | .stream =>
    some (if 0 < tx.spin then .hold else if tx.idx.val < 576 then .symbolByte else .idleWrite)

theorem enabledMicroStep_eq_none_iff {tx : Tx} : enabledMicroStep tx = none ↔ tx.phase = .ready := by
  cases hp : tx.phase <;> simp [enabledMicroStep, hp]

/-- The guards of the four rules hold of the enabled micro-step and of no other: above spin 0 only the hold's
can hold, and at spin 0 the phase and the index leave one. -/
theorem guard_iff_enabled {m : MicroStep} {tx : Tx} :
    m.guard tx = true ↔ enabledMicroStep tx = some m := by
  cases hp : tx.phase with
  | ready => cases m <;> simp [MicroStep.guard, enabledMicroStep, hp]
  | reset =>
    obtain hspin | hspin := Nat.eq_zero_or_pos tx.spin
    · cases m <;> simp [MicroStep.guard, enabledMicroStep, hp, hspin]
    · cases m <;> simp [MicroStep.guard, enabledMicroStep, hp, hspin, hspin.ne']
  | stream =>
    obtain hspin | hspin := Nat.eq_zero_or_pos tx.spin
    · obtain hi | hi : tx.idx.val < 576 ∨ tx.idx.val = 576 := by omega
      · cases m <;> simp [MicroStep.guard, enabledMicroStep, hp, hspin, hi, hi.ne]
      · cases m <;> simp [MicroStep.guard, enabledMicroStep, hp, hspin, hi]
    · cases m <;> simp [MicroStep.guard, enabledMicroStep, hp, hspin, hspin.ne']

theorem hold_guard_iff {tx : Tx} : MicroStep.hold.guard tx = true ↔ tx.phase ≠ .ready ∧ 0 < tx.spin := by
  cases hp : tx.phase <;> simp [MicroStep.guard, hp]

/-! ### The places of the events in a TRANSMIT's trace -/

/-- Past the slots before `a` stand the slots from `a` on (R137). -/
theorem drop_eventsFrom (cfg : Config) (bytes : SymAddr → Byte) {a : Nat} (h : a ≤ 576) :
    (eventsFrom cfg bytes 0).drop (a * (1 + cfg.slotSpin)) = eventsFrom cfg bytes a := by
  induction a with
  | zero => simp
  | succ a ih =>
    rw [Nat.succ_mul, ← List.drop_drop, ih (by omega), eventsFrom_of_lt cfg bytes (by omega),
      Nat.add_comm 1, List.drop_succ_cons, List.drop_left' (by simp)]

/-- The slots from `a` on come after the reset phase and the slots before `a` (R137). -/
theorem drop_transmitEvents (cfg : Config) (bytes : SymAddr → Byte) {a : Nat} (h : a ≤ 576) :
    (transmitEvents cfg bytes).drop (1 + cfg.resetSpin + a * (1 + cfg.slotSpin)) =
      eventsFrom cfg bytes a := by
  rw [transmitEvents_eq, ← List.drop_drop, Nat.add_comm 1 cfg.resetSpin, List.drop_succ_cons,
    List.drop_left' (by simp), drop_eventsFrom cfg bytes h]

/-- The length of R137's trace: only the idle write comes after the 576 slots. -/
theorem length_transmitEvents (cfg : Config) (bytes : SymAddr → Byte) :
    (transmitEvents cfg bytes).length = 1 + cfg.resetSpin + 576 * (1 + cfg.slotSpin) + 1 := by
  have h := congrArg List.length (drop_transmitEvents cfg bytes le_rfl)
  rw [List.length_drop, eventsFrom_end, List.length_singleton] at h
  omega

/-- What stands `n` events after the first one of slot `a`. -/
theorem transmitEvents_getElem? (cfg : Config) (bytes : SymAddr → Byte) (a : SymAddr) (n : Nat) :
    (transmitEvents cfg bytes)[1 + cfg.resetSpin + a.val * (1 + cfg.slotSpin) + n]? =
      (slotEvents cfg (bytes a) ++ eventsFrom cfg bytes (a.val + 1))[n]? := by
  rw [← List.getElem?_drop, drop_transmitEvents cfg bytes a.isLt.le, eventsFrom_of_lt cfg bytes a.isLt]
  rfl

/-! ### A TRANSMIT under way -/

/-- The block right after the issue of a TRANSMIT (R130), with `rest` still to come. -/
def State.transmitStarted (rest : List HostEvent) (s : State) : State :=
  ((s.portWrite s.cfg.codeIdle).setTx ⟨.reset, 0, s.cfg.resetSpin⟩).setHost rest

/-- The issue is the first of the steps of R137. -/
theorem State.stepsLeft_transmitStarted (s : State) (rest : List HostEvent) :
    (s.transmitStarted rest).stepsLeft + 1 = transmitSteps s.cfg := by
  simp [State.transmitStarted, State.stepsLeft, transmitSteps]

/-- After the issue of a TRANSMIT and before its last step the block is busy, and the host still has all it
waits with (R139). -/
theorem busy_during_transmit {bytes : SymAddr → Byte} {rest : List HostEvent} {k : Nat} (h : s.accepts)
    (hv : s.symValid = true) (hbytes : ∀ a, s.symRead a = some (bytes a))
    (hw : ∀ e ∈ rest.head?, e.blocking = true) (hk : k + 1 < transmitSteps s.cfg) :
    ∃ t, runSteps (k + 1) (s.setHost (.call (encode .transmit) :: rest)) = .next t ∧
      t.busy = true ∧ t.host = rest := by
  have hleft := s.stepsLeft_transmitStarted rest
  obtain ⟨t, hrun, htleft, hhost, -⟩ :=
    runSteps_of_transmission (s := s.transmitStarted rest) (k := k) ⟨h.1, hw⟩ hbytes (by omega)
  have hp : t.tx.phase ≠ .ready := fun hready => by
    rw [State.stepsLeft_eq_zero_iff.mpr hready] at htleft; omega
  exact ⟨t, (runSteps_of_step (step_call_transmit h hv rest)).trans hrun, t.busy_iff.mpr hp, hhost⟩

/-! ### No unstopped block is stuck -/

/-- In a busy block every command takes the BUSY fault (R203). -/
theorem exec_of_busy (hs : s.stopped = false) (hb : s.busy = true) (i : Instr) :
    exec i s = .next (s.raiseFault .busy (encode i)) := by
  cases i with
  | setpixel idx r g b => exact exec_setpixel_of_busy hs hb idx r g b
  | encode => exact exec_encode_of_busy hs hb
  | transmit => rw [exec, execTransmit, accept_of_busy hs hb]

/-- TRANSMIT with no ENCODE before it takes the NOT_ENCODED fault (R202). -/
theorem exec_transmit_of_notEncoded (h : s.accepts) (hv : s.symValid = false) :
    exec .transmit s = .next (s.raiseFault .notEncoded (encode .transmit)) := by
  rw [exec, execTransmit, accept_of_ready h.1 h.2, if_neg (by simp [hv])]

/-- A block that is not stopped answers every command (R200). -/
theorem exists_exec (hs : s.stopped = false) (i : Instr) : ∃ t, exec i s = .next t := by
  cases hb : s.busy with
  | true => exact ⟨_, exec_of_busy hs hb i⟩
  | false =>
    cases i with
    | setpixel idx r g b => exact ⟨_, exec_setpixel_of_accepts ⟨hs, hb⟩ idx r g b⟩
    | encode => exact ⟨_, exec_encode_of_accepts ⟨hs, hb⟩⟩
    | transmit =>
      cases hv : s.symValid with
      | true => exact ⟨_, exec_transmit_of_accepts ⟨hs, hb⟩ hv⟩
      | false => exact ⟨_, exec_transmit_of_notEncoded ⟨hs, hb⟩ hv⟩

/-- It answers every word, an illegal one with a fault that it records (R201). -/
theorem exists_issue (hs : s.stopped = false) (w : CmdWord) : ∃ t, issue w s = .next t := by
  unfold issue
  cases decode w with
  | ok i => exact exists_exec hs i
  | error e => exact ⟨_, rfl⟩

/-- Under the invariant the transmitter never finds a SYM with a byte missing (R25, R202). -/
theorem State.Inv.exists_microStep (h : s.Inv) : ∃ t, Machine.microStep s = .next t := by
  by_cases hp : s.tx.phase = .ready
  · exact ⟨s, microStep_of_ready hp⟩
  · have hsym := h.symbols
    rw [State.symOk, if_pos (State.symValid_of_txOk h.transmitter hp)] at hsym
    choose bytes hbytes _ using hsym
    obtain ⟨t, hm, -⟩ := microStep_advances hp hbytes
    exact ⟨t, hm⟩

theorem State.Inv.exists_act (h : s.Inv) (hs : s.stopped = false) (a : HostAction) :
    ∃ t, act a s = .next t := by
  cases a with
  | issue w => exact exists_issue hs w
  | reset => exact ⟨_, rfl⟩
  | idle => exact h.exists_microStep

/-! ### The statements -/

/-- Settles O36: the run is `runSteps_call_transmit`, and before its end there are steps left. -/
theorem transmitSendsTheWholeBuffer : Obligations.TransmitSendsTheWholeBuffer := by
  intro s bytes rest h hv hbytes hw
  refine ⟨runSteps_call_transmit h hv hbytes hw, fun k hpos hk => ?_⟩
  obtain ⟨k, rfl⟩ := Nat.exists_eq_succ_of_ne_zero hpos.ne'
  exact busy_during_transmit h hv hbytes hw hk

/-- Settles O37: past the reset phase and `a` slots the trace goes on with slot `a`. -/
theorem symbolBytesStandAtTheirSlots : Obligations.SymbolBytesStandAtTheirSlots := by
  refine fun cfg bytes => ⟨length_transmitEvents cfg bytes, fun a => ?_, fun a n hn => ?_⟩
  · exact transmitEvents_getElem? cfg bytes a 0
  · rw [Nat.add_assoc _ 1 n, Nat.add_comm 1 n, transmitEvents_getElem?]
    simp [slotEvents, List.getElem?_append_left, hn]

/-- Settles O39: a TRANSMIT leaves SYM and SYM_VALID alone and its block accepting, so the second one runs as
the first. -/
theorem secondTransmitRepeatsTheFirst : Obligations.SecondTransmitRepeatsTheFirst := by
  intro s bytes h hv hbytes
  have hfirst := runSteps_call_transmit (rest := [.call (encode .transmit)]) h hv hbytes (by simp)
  have hsecond := runSteps_call_transmit (rest := [])
    (s := s.finishTransmit (transmitEvents s.cfg bytes)) ⟨h.1, rfl⟩ hv hbytes (by simp)
  rw [Nat.two_mul]
  exact ⟨_, (runSteps_add (transmitSteps s.cfg) hfirst).trans hsecond,
    ⟨rfl, s.not_stopped_iff.mp h.1⟩, rfl⟩

/-- Settles O35: the guards single out `enabledMicroStep`, and each micro-step has its rule's effect. -/
theorem exactlyOneMicroStepIsEnabled : Obligations.ExactlyOneMicroStepIsEnabled := by
  intro s
  refine ⟨fun hp => ?_, fun hp m => ?_, fun hnone => ?_, fun hg => ?_, fun hg => ?_, fun hg => ?_,
    fun hg => ?_⟩
  · obtain ⟨m, hm⟩ := Option.ne_none_iff_exists'.mp (mt enabledMicroStep_eq_none_iff.mp hp)
    exact ⟨m, guard_iff_enabled.mpr hm, fun m' hm' =>
      Option.some.inj ((guard_iff_enabled.mp hm').symm.trans hm)⟩
  · rw [← Bool.not_eq_true, guard_iff_enabled, enabledMicroStep_eq_none_iff.mpr hp]
    simp
  · refine microStep_of_ready (enabledMicroStep_eq_none_iff.mp ?_)
    refine Option.eq_none_iff_forall_ne_some.mpr fun m hm => ?_
    exact absurd (guard_iff_enabled.mpr hm) (by simp [hnone m])
  · obtain ⟨hp, hspin⟩ := hold_guard_iff.mp hg
    exact microStep_of_hold hp hspin
  · obtain ⟨hp, hspin⟩ : s.tx.phase = .reset ∧ s.tx.spin = 0 := by simpa [MicroStep.guard] using hg
    exact microStep_of_endReset hp hspin
  · obtain ⟨hp, hspin, hi⟩ : s.tx.phase = .stream ∧ s.tx.spin = 0 ∧ s.tx.idx.val < 576 := by
      simpa [MicroStep.guard] using hg
    exact ⟨⟨s.tx.idx.val, hi⟩, ⟨s.tx.idx.val + 1, by omega⟩, rfl, rfl,
      fun b hb => microStep_of_symbolByte hp hspin hi hb, microStep_of_unwritten hp hspin hi⟩
  · obtain ⟨hp, hspin, hi⟩ : s.tx.phase = .stream ∧ s.tx.spin = 0 ∧ s.tx.idx.val = 576 := by
      simpa [MicroStep.guard] using hg
    exact microStep_of_idleWrite hp hspin hi

/-- Settles O43: with no event, or one that waits, the transmitter makes its micro-step; any other event is
answered. -/
theorem unstoppedBlockAlwaysSteps : Obligations.UnstoppedBlockAlwaysSteps := by
  intro s h hs
  cases hh : s.host with
  | nil => rw [step_of_no_event hs hh]; exact h.exists_microStep
  | cons e rest =>
    by_cases hwait : e.blocking = true ∧ s.busy = true
    · rw [step_of_waiting hs (by simp [hh, hwait.1]) hwait.2]
      exact h.exists_microStep
    · rw [step_of_event hs hh (by simpa [imp_iff_not_or] using hwait)]
      exact (h.setHost rest).exists_act hs e.action

/-- Settles O30, along the three things a TRANSMIT can do: the BUSY fault, the NOT_ENCODED fault, or the start
of the reset phase. -/
theorem transmitFrame : Obligations.TransmitFrame := by
  intro s t h
  obtain ⟨-, ⟨-, rfl⟩ | ⟨-, -, rfl⟩ | ⟨-, -, rfl⟩⟩ := execTransmit_cases h
  · exact ⟨rfl, fun _ => rfl, fun _ => rfl, fun _ => rfl⟩
  · exact ⟨rfl, fun _ => rfl, fun _ => rfl, fun _ => rfl⟩
  · exact ⟨rfl, fun hf => absurd rfl hf, fun _ => rfl, fun _ => rfl⟩

/-- Settles O31: the micro-step is the hold's. -/
theorem holdSpinsOnce : Obligations.HoldSpinsOnce :=
  fun _ hw hp hspin => (step_eq_microStep hw hp).trans (microStep_of_hold hp hspin)

/-- Settles O32: the micro-step is the end of the reset hold, and TX.spin is 0 already. -/
theorem resetHoldEndsSilently : Obligations.ResetHoldEndsSilently := by
  intro s hw hp hspin
  rw [step_eq_microStep hw (by simp [hp]), microStep_of_endReset hp hspin]
  simp [State.endResetStep, State.setTx, hspin]

/-- Settles O33: the micro-step is the symbol byte's, with the index one further. -/
theorem symbolByteGoesOut : Obligations.SymbolByteGoesOut := by
  intro s a next b hw htx hnext hb
  obtain rfl : next = a.succ := Fin.ext hnext
  have hp : s.tx.phase = .stream := by rw [htx]
  have hspin : s.tx.spin = 0 := by rw [htx]
  have hidx : s.tx.idx.val = a.val := by rw [htx]; rfl
  have hbyte : s.symRead ⟨s.tx.idx.val, hidx ▸ a.isLt⟩ = some b := by simpa [hidx] using hb
  rw [step_eq_microStep hw (by simp [hp]), microStep_of_symbolByte hp hspin _ hbyte]
  simp [State.portWrite, State.setTx, htx, Fin.ext_iff]

/-- Settles O34: the micro-step is the idle write's, and TX.spin is 0 already. -/
theorem idleWriteCompletesTheTransmit : Obligations.IdleWriteCompletesTheTransmit := by
  intro s hw htx
  have hm := microStep_of_idleWrite (s := s) (by rw [htx]) (by rw [htx]) (by rw [htx]; rfl)
  rw [step_eq_microStep hw (by simp [htx]), hm, State.idleWriteStep, htx]
  rfl

end Sys2Proof.Machine

/-! SUPPORT. The reference host (48_host_animation.md): its state after every frame, the bounces, and the run of
its frames on the block; then the statements of this family. -/

namespace Sys2Proof.Machine

variable {s t : State}

/-! ### The state after every frame -/

/-- The host state after frame `f`, in closed form: sweeps of seven frames, up and down in turn, each with the
next palette colour (R170). Before frame 1 it is the initial state. -/
def AnimState.closedForm (f : Nat) : AnimState where
  step := (if f % 14 ≤ 7 then f % 14 else 14 - f % 14 : Nat)
  direction := if (f - 1) / 7 % 2 = 0 then .up else .down
  colorIndex := ⟨(f - 1) / 7 % 8, Nat.mod_lt _ (by decide)⟩

theorem AnimState.closedForm_atTop_iff (f : Nat) :
    ((closedForm f).step = 7 ∧ (closedForm f).direction = .up) ↔ f % 14 = 7 := by
  simp only [closedForm]
  split <;> split <;> simp <;> omega

theorem AnimState.closedForm_atBottom_iff (f : Nat) :
    ((closedForm f).step = 0 ∧ (closedForm f).direction = .down) ↔ 1 ≤ f ∧ f % 14 = 0 := by
  simp only [closedForm]
  split <;> split <;> simp <;> omega

/-- A bounce is the first frame of a sweep, the very first sweep apart. -/
theorem AnimState.closedForm_bounces_iff (f : Nat) : (closedForm f).bounces ↔ 1 ≤ f ∧ f % 7 = 0 := by
  rw [bounces, closedForm_atTop_iff, closedForm_atBottom_iff]
  omega

theorem AnimState.closedForm_nextDirection (f : Nat) :
    (closedForm f).nextDirection = (closedForm (f + 1)).direction := by
  simp only [nextDirection, closedForm_atTop_iff, closedForm_atBottom_iff]
  split
  · next h => exact (if_pos (by omega)).symm
  · split
    · next h => exact (if_neg (by omega)).symm
    · have hsweep : (f + 1 - 1) / 7 = (f - 1) / 7 := by omega
      simp only [closedForm, hsweep]

theorem AnimState.closedForm_nextColor (f : Nat) :
    (closedForm f).nextColor = (closedForm (f + 1)).colorIndex := by
  simp only [nextColor, closedForm_bounces_iff]
  split <;> simp only [closedForm, Fin.ext_iff, Fin.val_add, Fin.val_one] <;> omega

theorem AnimState.closedForm_step_add (f : Nat) :
    (closedForm f).step + (closedForm (f + 1)).direction.delta = (closedForm (f + 1)).step := by
  simp only [closedForm]
  by_cases hup : (f + 1 - 1) / 7 % 2 = 0
  · rw [if_pos hup, if_pos (by omega), if_pos (by omega), Direction.delta]
    omega
  · rw [if_neg hup, Direction.delta]
    split <;> split <;> omega

theorem AnimState.closedForm_next (f : Nat) : (closedForm f).next = closedForm (f + 1) := by
  rw [next, closedForm_nextDirection, closedForm_nextColor, closedForm_step_add]

/-- R170: the frames follow the closed form. -/
theorem AnimState.after_eq_closedForm (f : Nat) : AnimState.after f = closedForm f := by
  induction f with
  | zero => rfl
  | succ f ih => rw [after, ih, closedForm_next]

/-- The step names a pixel before every frame (R170). -/
theorem AnimState.after_step_bounds (f : Nat) : 0 ≤ (after f).step ∧ (after f).step ≤ 7 := by
  rw [after_eq_closedForm]
  simp only [closedForm]
  split <;> omega

/-- The direction changes on a bounce and only there (R165). -/
theorem AnimState.nextDirection_ne_iff (h : AnimState) : h.nextDirection ≠ h.direction ↔ h.bounces := by
  unfold nextDirection
  split
  · next hd => simp [bounces, hd]
  · next hd =>
    split
    · next hu => simp [bounces, hu]
    · next hu => simp [bounces, hd, hu]

/-- A frame clears the pixel that the frame before it lit (R165, R171). -/
theorem AnimState.next_step_sub_delta (h : AnimState) : h.next.step - h.next.direction.delta = h.step :=
  Int.add_sub_cancel _ _

/-! ### The pixel store over a frame -/

theorem pixAddr_div_three (p : Fin 8) (c : Fin 3) : (pixAddr p c).val / 3 = p.val := by
  simp only [pixAddr_val]
  omega

theorem pixAddr_mod_three (p : Fin 8) (c : Fin 3) : (pixAddr p c).val % 3 = c.val := by
  simp only [pixAddr_val]
  omega

/-- What a SETPIXEL makes of the state (R100, R101). -/
def State.setPixel (idx : Int) (r g b : Byte) (s : State) : State :=
  { s with pix := Memory.setPixel idx r g b s.pix }

/-- A SETPIXEL, byte by byte, whatever its index (R100, R101). -/
theorem State.pixRead_setPixel (idx : Int) (r g b : Byte) (s : State) (a : PixAddr) :
    (s.setPixel idx r g b).pixRead a =
      if ((a.val / 3 : Nat) : Int) = idx then
        (if a.val % 3 = 0 then g else if a.val % 3 = 1 then r else b)
      else s.pixRead a := by
  obtain hi | ⟨p, hp⟩ := index_outOfRange_or_pixel idx
  · have hnone : pixelOf idx = none := pixelOf_eq_none_iff.mpr (by omega)
    rw [if_neg (by omega), setPixel, Memory.setPixel, hnone]
  · have hwrite : s.setPixel idx r g b = s.writePixel p r g b := by
      rw [setPixel, Memory.setPixel, pixelOf_eq_some_iff.mpr hp]
      rfl
    obtain ⟨q, c, rfl⟩ := exists_pixAddr a
    rw [hwrite, State.pixRead_writePixel, pixAddr_div_three, pixAddr_mod_three]
    simp only [hp, Nat.cast_inj, Fin.ext_iff, Fin.val_zero, Fin.val_one]

/-- What `Update()` makes of the state: one pixel cleared, and then one lit (R165). -/
def State.update (palette : Palette) (h : AnimState) (s : State) : State :=
  (s.setPixel (h.step - h.direction.delta) 0 0 0).setPixel h.step
    (palette h.nextColor).r (palette h.nextColor).g (palette h.nextColor).b

/-- Every pixel but the one at `idx` is off. -/
def State.DarkBut (idx : Int) (s : State) : Prop :=
  ∀ a : PixAddr, ((a.val / 3 : Nat) : Int) ≠ idx → s.pixRead a = 0

/-- When only the pixel that `Update()` clears can be on, it leaves the frame's picture (R171). -/
theorem State.pixRead_update {palette : Palette} {h : AnimState}
    (hdark : s.DarkBut (h.step - h.direction.delta)) :
    (s.update palette h).pixRead = h.picture palette := by
  funext a
  rw [update, pixRead_setPixel, AnimState.picture]
  refine if_congr Iff.rfl rfl ?_
  rw [pixRead_setPixel]
  split
  · simp
  · next hother => exact hdark a hother

/-- In a picture only the pixel at the step can be on. -/
theorem State.darkBut_of_picture {palette : Palette} {h : AnimState}
    (hpix : s.pixRead = h.picture palette) : s.DarkBut h.step := fun a ha => by
  rw [hpix, AnimState.picture, if_neg ha]

/-- In the picture of a frame with a colour that is not black, the lit pixel is the one at the step. -/
theorem State.lit_iff_of_picture {palette : Palette} {h : AnimState}
    (hpix : s.pixRead = h.picture palette) (hlit : (palette h.nextColor).lit) (p : Fin 8) :
    s.lit p = true ↔ (p.val : Int) = h.step := by
  simp only [State.lit, List.any_eq_true, List.mem_finRange, true_and, decide_eq_true_eq, hpix,
    AnimState.picture, pixAddr_div_three, pixAddr_mod_three]
  split
  · next hp => simpa [Rgb.lit, hp, Fin.exists_fin_succ, or_comm, or_left_comm] using hlit
  · next hp => simp [hp]

/-! ### Runs -/

/-- Some run from `s` ends in `t`. -/
def Reaches (s t : State) : Prop := ∃ n, runSteps n s = .next t

theorem Reaches.refl (s : State) : Reaches s s := ⟨0, rfl⟩

theorem Reaches.of_step (h : step s = .next t) : Reaches s t := ⟨1, runSteps_of_step h⟩

theorem Reaches.trans {u : State} : Reaches s t → Reaches t u → Reaches s u
  | ⟨m, hm⟩, ⟨n, hn⟩ => ⟨m + n, (runSteps_add n hm).trans hn⟩

/-- A delay leaves the block as it is (R161, R217). -/
theorem reaches_of_delays (h : s.accepts) (n : Nat) (rest : List HostEvent) :
    Reaches (s.setHost (List.replicate n .delay ++ rest)) (s.setHost rest) := by
  induction n with
  | zero => exact Reaches.refl _
  | succ n ih =>
    have hready (rest : List HostEvent) : (s.setHost rest).tx.phase = .ready := s.not_busy_iff.mp h.2
    exact (Reaches.of_step ((step_of_event (s := s.setHost (.delay :: _)) h.1 rfl (.inr h.2)).trans
      (microStep_of_ready (hready _)))).trans ih

/-- What an ENCODE and then a whole TRANSMIT make of the state (R110, R137, R138). -/
def State.sendFrame (s : State) : State :=
  s.encodeFrame.markSymValid.finishTransmit (transmitEvents s.cfg s.frameByte)

/-- An ENCODE and a TRANSMIT send the frame that stands in PIX. -/
theorem reaches_sendFrame (h : s.accepts) {rest : List HostEvent}
    (hrest : ∀ e ∈ rest.head?, e.blocking = true) :
    Reaches (s.setHost (.call (encode .encode) :: .call (encode .transmit) :: rest))
      (s.sendFrame.setHost rest) :=
  (Reaches.of_step (step_call_encode h _)).trans
    ⟨_, runSteps_call_transmit (s := s.encodeFrame.markSymValid) h rfl (symRead_encodeFrame s) hrest⟩

/-- The two SETPIXELs of `Update()` update the state. -/
theorem reaches_update (h : s.accepts) (palette : Palette) {a : AnimState} (hlow : 0 ≤ a.step)
    (hhigh : a.step ≤ 7) (rest : List HostEvent) :
    Reaches (s.setHost ((a.commands palette).map (fun i => .call (encode i)) ++ rest))
      ((s.update palette a).setHost rest) := by
  have hclear : idxEncodable (a.step - a.direction.delta) := by
    cases a.direction <;> simp only [Direction.delta] <;> omega
  exact (Reaches.of_step (step_call_setpixel h hclear 0 0 0 _)).trans
    (Reaches.of_step (step_call_setpixel (s := s.setPixel _ 0 0 0) h (by omega) _ _ _ rest))

/-- What a frame makes of the state (R167). -/
def State.playFrame (palette : Palette) (a : AnimState) (s : State) : State :=
  (s.update palette a).sendFrame

/-- Sending the frame leaves PIX alone, so what `Update()` made of PIX stays (R171). -/
theorem State.pixRead_playFrame {palette : Palette} {h : AnimState}
    (hdark : s.DarkBut (h.step - h.direction.delta)) :
    (s.playFrame palette h).pixRead = h.picture palette :=
  pixRead_update hdark

theorem AnimState.blocking_of_mem_frame {palette : Palette} {sample : Nat} {a : AnimState} :
    ∀ e ∈ a.frame palette sample, e.blocking = true := by
  simp only [frame, List.mem_append, List.mem_map, List.mem_replicate]
  rintro e (⟨i, -, rfl⟩ | ⟨-, rfl⟩) <;> rfl

/-- The events of a frame play it. -/
theorem reaches_playFrame (h : s.accepts) (palette : Palette) (sample : Nat) {a : AnimState}
    (hlow : 0 ≤ a.step) (hhigh : a.step ≤ 7) {rest : List HostEvent}
    (hrest : ∀ e ∈ rest, e.blocking = true) :
    Reaches (s.setHost (a.frame palette sample ++ rest)) ((s.playFrame palette a).setHost rest) := by
  have hwait : ∀ e ∈ (List.replicate sample HostEvent.delay ++ rest).head?, e.blocking = true := by
    intro e he
    obtain hd | hr := List.mem_append.mp (List.mem_of_mem_head? he)
    · rw [List.eq_of_mem_replicate hd]
    · exact hrest e hr
  have hupdate := reaches_update h palette hlow hhigh
    (.call (encode .encode) :: .call (encode .transmit) :: (List.replicate sample .delay ++ rest))
  exact (hupdate.trans (reaches_sendFrame (s := s.update palette a) h hwait)).trans
    (reaches_of_delays (s := s.playFrame palette a) ⟨h.1, rfl⟩ sample rest)

/-! ### The frames from reset -/

/-- The block after `f` frames of the reference host from reset. -/
def State.played (palette : Palette) : Nat → State
  | 0 => State.reset
  | f + 1 => (State.played palette f).playFrame palette (AnimState.after f)

theorem State.played_accepts (palette : Palette) (f : Nat) : (played palette f).accepts := by
  induction f with
  | zero => exact ⟨rfl, rfl⟩
  | succ f ih => exact ⟨ih.1, rfl⟩

theorem State.played_cfg (palette : Palette) (f : Nat) : (played palette f).cfg = State.reset.cfg := by
  induction f with
  | zero => rfl
  | succ f ih => exact ih

/-- The script of `f` frames plays them. -/
theorem reaches_played (palette : Palette) (samples : Nat → Nat) (f : Nat) {rest : List HostEvent}
    (hrest : ∀ e ∈ rest, e.blocking = true) :
    Reaches (State.reset.setHost (animationScript palette samples f ++ rest))
      ((State.played palette f).setHost rest) := by
  induction f generalizing rest with
  | zero => exact Reaches.refl _
  | succ f ih =>
    rw [animationScript, List.append_assoc]
    obtain ⟨hlow, hhigh⟩ := AnimState.after_step_bounds f
    refine (ih fun e he => ?_).trans
      (reaches_playFrame (State.played_accepts palette f) palette (samples f) hlow hhigh hrest)
    obtain hframe | hafter := List.mem_append.mp he
    · exact AnimState.blocking_of_mem_frame e hframe
    · exact hrest e hafter

theorem State.darkBut_reset (idx : Int) : State.reset.DarkBut idx := fun _ _ => rfl

/-- After each frame PIX is the frame's picture: the pixel it clears is the only one that was on, by the picture
of the frame before (R171). -/
theorem State.pixRead_played (palette : Palette) (f : Nat) :
    (played palette (f + 1)).pixRead = (AnimState.after f).picture palette := by
  induction f with
  | zero => exact pixRead_playFrame (darkBut_reset _)
  | succ f ih =>
    refine pixRead_playFrame (s := played palette (f + 1)) ?_
    rw [AnimState.after, AnimState.next_step_sub_delta]
    exact darkBut_of_picture ih

theorem State.trace_played (palette : Palette) (f : Nat) :
    (played palette f).trace = (List.range f).flatMap fun k =>
      transmitEvents State.reset.cfg
        (frameByteOf State.reset.cfg ((AnimState.after k).picture palette)) := by
  induction f with
  | zero => rfl
  | succ f ih =>
    rw [List.range_succ, List.flatMap_append, List.flatMap_singleton, ← ih, ← pixRead_played,
      ← played_cfg palette f]
    rfl

/-! ### The statements -/

/-- Settles O49: the script reaches the state after its frames, which shows the last frame's picture and has
sent every frame's. -/
theorem referenceHostLightsOnePixel : Obligations.ReferenceHostLightsOnePixel := by
  intro palette samples f hlit
  obtain ⟨n, hrun⟩ := reaches_played palette samples (f + 1) (rest := []) (by simp)
  rw [List.append_nil] at hrun
  have hpix := State.pixRead_played palette f
  have haccepts := State.played_accepts palette (f + 1)
  refine ⟨n, _, hrun, rfl, ⟨(State.not_busy_iff _).mp haccepts.2, (State.not_stopped_iff _).mp haccepts.1⟩,
    State.lit_iff_of_picture (s := State.setHost [] _) hpix (hlit _), congrFun hpix, ?_⟩
  rw [State.setHost_cfg, State.played_cfg]
  exact State.trace_played palette (f + 1)

/-- Settles O47: the closed form, field by field. -/
theorem animationStateInClosedForm : Obligations.AnimationStateInClosedForm := by
  intro f _
  rw [AnimState.after_eq_closedForm]
  exact ⟨rfl, rfl, rfl⟩

/-- Settles O48: a bounce is the first frame of a sweep, and R165 changes the direction and the palette index on
a bounce. -/
theorem bouncesOnlyAtTheEnds : Obligations.BouncesOnlyAtTheEnds := by
  refine fun f => ⟨?_, (AnimState.after f).nextDirection_ne_iff, rfl⟩
  rw [AnimState.after_eq_closedForm, AnimState.closedForm_bounces_iff]
  constructor
  · rintro ⟨hpos, hmod⟩
    exact ⟨f / 7, by omega, by omega⟩
  · rintro ⟨k, hk, hf⟩
    omega

/-- Settles O46, by running the host for eight frames. -/
theorem animationScenario : Obligations.AnimationScenario :=
  ⟨rfl, rfl, fun _ => rfl, rfl, fun _ => rfl, rfl⟩

end Sys2Proof.Machine

/-! SUPPORT. The faults (60_exceptions.md): what each of the three faults leaves behind, which fault an arriving
word records, and the step of a stopped block; then the statements of this family. -/

namespace Sys2Proof.Machine

variable {s t : State} {i : Instr} {w : CmdWord}

/-! ### The fault that a command or a word records -/

/-- The word that TRANSMIT's faults record (R71). -/
theorem encode_transmit : encode .transmit = 0x0300000000000000 := by decide

/-- A word that is no command takes the ILLEGAL_COMMAND fault (R201). -/
theorem issue_of_illegal {e : IllegalWord} (hd : decode w = .error e) :
    issue w s = .next (s.raiseFault .illegalCommand w) := by
  rw [issue, hd]

/-- In a busy block a legal word takes the BUSY fault, and it is the word that FAULT records (R203, log 8). -/
theorem issue_of_busy (hs : s.stopped = false) (hb : s.busy = true) (hd : decode w = .ok i) :
    issue w s = .next (s.raiseFault .busy w) := by
  rw [issue_of_legal hd, exec_of_busy hs hb, (wf_and_encode_of_decode hd).2]

/-- In a block that accepts, only a TRANSMIT before any ENCODE records a fault (R202). -/
theorem exists_exec_of_accepts (h : s.accepts) (i : Instr) :
    ∃ t, exec i s = .next t ∧ t.fault =
      if i = .transmit ∧ s.symValid = false then ⟨.notEncoded, encode i⟩ else s.fault := by
  cases i with
  | setpixel idx r g b => exact ⟨_, exec_setpixel_of_accepts h idx r g b, by simp⟩
  | encode => exact ⟨_, exec_encode_of_accepts h, by simp [State.encodeFrame]⟩
  | transmit =>
    cases hv : s.symValid with
    | false => exact ⟨_, exec_transmit_of_notEncoded h hv, by simp⟩
    | true => exact ⟨_, exec_transmit_of_accepts h hv, by simp⟩

/-- A command leaves FAULT alone, or does nothing but record a fault with its word (R205). -/
theorem exec_fault_cases (h : exec i s = .next t) :
    t.fault = s.fault ∨ ∃ kind ≠ .none, t = s.raiseFault kind (encode i) := by
  obtain ⟨-, rfl⟩ | ⟨_, _, _, _, -, rfl | ⟨_, rfl⟩⟩ | ⟨-, -, rfl⟩ | ⟨rfl, -, -, rfl⟩ | ⟨-, -, rfl⟩ :=
    exec_cases h
  · exact .inr ⟨.busy, by decide, rfl⟩
  · exact .inl rfl
  · exact .inl rfl
  · exact .inl rfl
  · exact .inr ⟨.notEncoded, by decide, rfl⟩
  · exact .inl rfl

/-- An arriving word leaves FAULT alone, or does nothing but record a fault with the word (R201, R205). -/
theorem issue_fault_cases (h : issue w s = .next t) :
    t.fault = s.fault ∨ ∃ kind ≠ .none, t = s.raiseFault kind w := by
  obtain ⟨i, hd, hx⟩ | ⟨e, -, rfl⟩ := issue_cases h
  · rw [← (wf_and_encode_of_decode hd).2]
    exact exec_fault_cases hx
  · exact .inr ⟨.illegalCommand, by decide, rfl⟩

/-! ### The stopped block -/

/-- A stopped block accepts no command (R204, log 7). -/
theorem exec_of_stopped (hs : s.stopped = true) (i : Instr) : exec i s = .fault .stopped := by
  cases i with
  | setpixel idx r g b => rw [exec, execSetpixel, accept_of_stopped hs]
  | encode => rw [exec, execEncode, accept_of_stopped hs]
  | transmit => rw [exec, execTransmit, accept_of_stopped hs]

/-- The step of a stopped block looks for the host's next reset only (R204). -/
theorem step_of_stopped (hs : s.stopped = true) : step s = stoppedTurn s := by
  rw [step, turn, if_pos hs]

/-- Without a reset to come a stopped block is stuck (log 6). -/
theorem step_of_stopped_of_no_reset (hs : s.stopped = true) (hr : ∀ e ∈ s.host, e.action ≠ .reset) :
    step s = .fault .stopped := by
  rw [step_of_stopped hs, stoppedTurn, afterReset?_eq_none hr]

/-- A stopped block takes the host's next reset, and the events before it are lost (R204, log 6). -/
theorem step_of_stopped_of_reset {before after : List HostEvent} {e : HostEvent} (hs : s.stopped = true)
    (hh : s.host = before ++ e :: after) (hbefore : ∀ d ∈ before, d.action ≠ .reset)
    (he : e.action = .reset) : step s = .next (s.setHost after).applyReset := by
  rw [step_of_stopped hs, stoppedTurn, hh, afterReset?_append after hbefore he]

/-! ### FAULT after a step -/

/-- A step from a recorded fault is a reset that the host makes (R204). -/
theorem step_fault_of_stopped (hs : s.stopped = true) (h : step s = .next t) :
    t.fault = ⟨.none, 0⟩ ∧ ∃ e ∈ s.host, e.action = .reset := by
  obtain ⟨-, rest, hr, rfl⟩ | ⟨hn, -⟩ | ⟨hn, -⟩ := step_cases h
  · exact ⟨rfl, exists_reset_of_afterReset? hr⟩
  · simp [hs] at hn
  · simp [hs] at hn

/-- A step without a recorded fault keeps FAULT, is a reset, or is the arrival of the word that FAULT then holds
(R30, R201). -/
theorem step_fault_cases (hs : s.stopped = false) (h : step s = .next t) :
    t.fault = s.fault ∨
    (t.fault = ⟨.none, 0⟩ ∧ ∃ e ∈ s.host.head?, e.action = .reset) ∨
    (t.fault.kind ≠ .none ∧ ∃ e rest, s.host = e :: rest ∧ e.action = .issue t.fault.cmd) := by
  obtain ⟨rest, hr | ⟨e, hh, he⟩, rfl⟩ | ⟨-, rest, hm⟩ | ⟨-, e, rest, w, hh, he, hw⟩ := step_origin h
  · simp [hs] at hr
  · exact .inr (.inl ⟨rfl, e, by simp [hh], he⟩)
  · exact .inl (microStep_fault (s := s.setHost rest) hm)
  · obtain hsame | ⟨kind, hkind, rfl⟩ := issue_fault_cases hw
    · exact .inl hsame
    · exact .inr (.inr ⟨hkind, e, rest, hh, he⟩)

/-! ### The statements -/

/-- Settles O11, in the order of R206: an illegal word, a legal one in a busy block, a legal one in a block that
accepts. -/
theorem faultPriorityOfAnArrivingWord : Obligations.FaultPriorityOfAnArrivingWord := by
  refine ⟨⟨rfl, rfl, rfl, rfl⟩, fun s w hs => ?_⟩
  rw [step_withCommand s w hs]
  cases hd : decode w with
  | error e => exact ⟨_, issue_of_illegal hd, rfl⟩
  | ok i =>
    cases hb : s.busy with
    | true => exact ⟨_, issue_of_busy hs hb hd, rfl⟩
    | false =>
      obtain ⟨t, hx, hf⟩ := exists_exec_of_accepts ⟨hs, hb⟩ i
      rw [(wf_and_encode_of_decode hd).2] at hf
      exact ⟨t, (issue_of_legal hd).trans hx, by simpa using hf⟩

/-- Settles O12: FAULT is not as it was, since it stops the block now, so recording it is all that happened. -/
theorem faultingCommandChangesOnlyFault : Obligations.FaultingCommandChangesOnlyFault := by
  intro s t w hs h ht
  rw [step_withCommand s w hs] at h
  obtain hsame | ⟨kind, -, rfl⟩ := issue_fault_cases h
  · rw [t.stopped_iff, hsame] at ht
    exact absurd (s.not_stopped_iff.mp hs) ht
  · exact ⟨rfl, rfl⟩

/-- Settles O14: no command is accepted, and the step looks for the host's next reset only. -/
theorem stoppedBlockTakesOnlyAReset : Obligations.StoppedBlockTakesOnlyAReset := by
  intro s hk
  have hs : s.stopped = true := s.stopped_iff.mpr hk
  refine ⟨exec_of_stopped hs, step_of_stopped_of_no_reset hs, fun before e after hh hbefore he => ?_⟩
  exact ⟨_, step_of_stopped_of_reset hs hh hbefore he, State.applyReset_atReset _, rfl, rfl⟩

/-- Settles O15: a stopped block's step is `step_fault_of_stopped`, and any other is one of the three cases of
`step_fault_cases`. -/
theorem onlyAResetClearsAFault : Obligations.OnlyAResetClearsAFault := by
  intro s t h
  refine ⟨fun hk => step_fault_of_stopped (s.stopped_iff.mpr hk) h, fun hk hrec => ?_, fun hk hnone => ?_⟩
  · obtain hsame | ⟨hreset, -⟩ | ⟨-, hword⟩ := step_fault_cases (s.not_stopped_iff.mpr hk) h
    · exact absurd hk (hsame ▸ hrec)
    · simp [hreset] at hrec
    · exact hword
  · obtain hsame | hreset | ⟨hrec, -⟩ := step_fault_cases (s.not_stopped_iff.mpr hk) h
    · exact .inl hsame
    · exact .inr hreset
    · exact absurd hnone hrec

/-- Settles O13: `exec` records the instruction's word, which is the word that arrived. -/
theorem busyBlockTurnsEveryCommandAway : Obligations.BusyBlockTurnsEveryCommandAway :=
  ⟨rfl, fun i s hs hb => ⟨exec_of_busy hs hb i, fun w hd =>
    (step_withCommand s w hs).trans (issue_of_busy hs hb hd)⟩⟩

/-- Settles O29: TRANSMIT in a busy block, in one without an encoded frame, and in one that sends. -/
theorem transmitStartsTheResetPhase : Obligations.TransmitStartsTheResetPhase := by
  refine ⟨rfl, fun s hs => ⟨fun hb => ?_, fun hb hv => ?_, fun hb hv => ?_⟩⟩
  · rw [exec_of_busy hs hb, encode_transmit, State.raiseFault]
  · rw [exec_transmit_of_notEncoded ⟨hs, hb⟩ hv, encode_transmit, State.raiseFault]
  · exact exec_transmit_of_accepts ⟨hs, hb⟩ hv

end Sys2Proof.Machine

/-! SUPPORT. Reset and hazards (70_reset_and_hazards.md): the step in which an idle block is left alone, and the
time of a trace; then the statements of this family. -/

namespace Sys2Proof.Machine

variable {s : State}

/-! ### The step of an idle block -/

/-- The step in which the host does nothing, when control has returned, is the transmitter's (R161, R217). -/
theorem step_of_idle_event {rest : List HostEvent} {blocking : Bool} (h : s.accepts)
    (hh : s.host = ⟨.idle, blocking⟩ :: rest) : step s = microStep (s.setHost rest) :=
  step_of_event h.1 hh (.inr h.2)

/-! ### The time of a trace -/

namespace Platform

variable (pl : Platform)

@[simp] theorem traceTime_nil : pl.traceTime [] = 0 := rfl

@[simp] theorem traceTime_cons (e : PortEvent) (trace : List PortEvent) :
    pl.traceTime (e :: trace) = pl.eventTime e + pl.traceTime trace := by
  simp [traceTime]

@[simp] theorem traceTime_append (before after : List PortEvent) :
    pl.traceTime (before ++ after) = pl.traceTime before + pl.traceTime after := by
  simp [traceTime]

/-- A write and its hold: the form of the reset phase and of every slot (R141). -/
theorem traceTime_write_hold (b : Byte) (spins : Nat) :
    pl.traceTime (.write b :: List.replicate spins .spin) = pl.tWrite + spins * pl.tSpin := by
  simp [traceTime, eventTime]

/-- The time of a slot does not depend on its byte (R141). -/
theorem traceTime_slotEvents (cfg : Config) (b : Byte) :
    pl.traceTime (slotEvents cfg b) = pl.slotTime cfg :=
  pl.traceTime_write_hold b cfg.slotSpin

/-- Slots take the time of one, as often as there are slots (R250). -/
theorem traceTime_slots (cfg : Config) (bytes : SymAddr → Byte) (slots : List SymAddr) :
    pl.traceTime (slots.flatMap fun a => slotEvents cfg (bytes a)) =
      slots.length * pl.slotTime cfg := by
  induction slots with
  | nil => simp
  | cons a slots ih =>
    rw [List.flatMap_cons, traceTime_append, traceTime_slotEvents, ih, List.length_cons]
    push_cast
    ring

end Platform

/-! ### The statements -/

/-- Settles O50: the three parts of R137's trace, each with its time. -/
theorem transmitTimeIsResetSlotsAndIdle : Obligations.TransmitTimeIsResetSlotsAndIdle := by
  intro pl cfg bytes
  have hreset : pl.traceTime (.write cfg.codeIdle :: List.replicate cfg.resetSpin .spin) =
      pl.resetTime cfg := pl.traceTime_write_hold cfg.codeIdle cfg.resetSpin
  have hslots := pl.traceTime_slots cfg bytes (List.finRange 576)
  have hidle : pl.traceTime [.write cfg.codeIdle] = pl.tWrite := by simp [Platform.eventTime]
  rw [transmitEvents, Platform.traceTime_append, Platform.traceTime_append, hreset, hslots, hidle,
    List.length_finRange, Nat.cast_ofNat]

/-- Settles O2: either way the step is the transmitter's, and no micro-step is enabled at READY. -/
theorem idleBlockKeepsItsState : Obligations.IdleBlockKeepsItsState := by
  intro s h
  have hready : s.tx.phase = .ready := s.not_busy_iff.mp h.2
  refine ⟨fun hh => ?_, fun rest blocking hh => ?_⟩
  · exact (step_of_no_event h.1 hh).trans (microStep_of_ready hready)
  · exact (step_of_idle_event h hh).trans (microStep_of_ready (s := s.setHost rest) hready)

end Sys2Proof.Machine
